-- ==== Sys2Proof/Word.lean ====
section
/-! DEFINITION. The word types of the engine (00_scope.md R7, R9, R10): bytes, 32-bit words, 64-bit values. -/

namespace Sys2Proof

/-- A byte: "a byte is an integer in [0, 256)" (R9). -/
abbrev Byte := BitVec 8

/-- A 32-bit word; `+` on it is the spec's `+32`, addition modulo 2^32 (R9, R170). -/
abbrev Word := BitVec 32

/-- A 64-bit value: the length counter, the bit length, the moving factor, a time (R7). -/
abbrev Dword := BitVec 64

end Sys2Proof
end

