-- ==== Sys2Proof/Syntax.lean ====
section
/-! DEFINITION. The operations of spec/opcode_table.json (30_encoding.md R110) and the names of the registers. -/

namespace Sys2Proof

/-- The nine operations (R110): two host bus transactions and seven commands. -/
inductive Instr where
  /-- `REG_READ` (R140): `offset` is the byte offset from `REG_BASE`; a well-formed one is a multiple of 4. -/
  | regRead (offset : BitVec 8)
  /-- `REG_WRITE` (R141): `offset` as for `regRead`, and the 32-bit value written. -/
  | regWrite (offset : BitVec 8) (data : Word)
  /-- `SHA1_INIT` (R200) on context `ctx`. -/
  | sha1Init (ctx : BitVec 4)
  /-- `SHA1_UPDATE` (R202) on context `ctx`. -/
  | sha1Update (ctx : BitVec 4)
  /-- `SHA1_BLOCK` (R206) on context `ctx`. -/
  | sha1Block (ctx : BitVec 4)
  /-- `SHA1_FINISH` (R209) on context `ctx`. -/
  | sha1Finish (ctx : BitVec 4)
  /-- `HMAC_SHA1` (R232); it has no field. -/
  | hmacSha1
  /-- `HOTP_GEN` (R256): the `DIGITS` field and the ignored `CKSUM` bit (R255). -/
  | hotpGen (digits : BitVec 8) (cksum : Bool)
  /-- `TOTP_GEN` (R264): the `DIGITS` field. -/
  | totpGen (digits : BitVec 8)
deriving DecidableEq, Repr

/-- The defined registers of the register block (10_state.md R36), in the table's order. -/
inductive Reg where
  | cmd | status | errcode | ctrl | id | caps
  | msgAddr | msgLen | keyAddr | keyLen | cntLo | cntHi | timeLo | timeHi | t0Lo | t0Hi | step | truncOff
  | ctxSel
  | digest0 | digest1 | digest2 | digest3 | digest4
  | otpValue | otpTrunc | otpStr0 | otpStr1 | totpCntLo | totpCntHi
  | viewH0 | viewH1 | viewH2 | viewH3 | viewH4 | viewLenLo | viewLenHi | viewPlen | viewState
deriving DecidableEq, Repr

end Sys2Proof
end

