-- ==== Sys2Proof/WellFormed.lean ====
section
/-! DEFINITION. When an operation is well formed: a register offset is a multiple of 4 (30_encoding.md R111,
20_memory.md R87). Every value of a command's fields is well formed: an index `CTX >= N_CTX` and a `DIGITS` outside
6, 7, 8 are reported at execution, not by the form of the word (R115). -/

namespace Sys2Proof

/-- `offset[1:0] = 00` (R111). -/
def alignedOffset (offset : BitVec 8) : Bool := offset.extractLsb' 0 2 == 0#2

/-- The operations the encodings of R111 and R112 can name. -/
def Instr.wf : Instr → Bool
  | .regRead offset => alignedOffset offset
  | .regWrite offset _ => alignedOffset offset
  | .sha1Init _ => true
  | .sha1Update _ => true
  | .sha1Block _ => true
  | .sha1Finish _ => true
  | .hmacSha1 => true
  | .hotpGen _ _ => true
  | .totpGen _ => true

end Sys2Proof
end

