-- ==== Sys2Proof/Decode.lean ====
section
/-! DEFINITION. The decoder (30_encoding.md R111, R112, R114, R115), total, refusing by name, and the encoder written
from the same tables. A transaction and a command word arrive at different ports, so an encoded operation says which
port it is for. -/

namespace Sys2Proof

/-- Why a pattern names no operation. -/
inductive DecodeError where
  /-- `ILLEGAL`: no row of R114 matches the command word (R115, R116). -/
  | illegalCommand
  /-- `offset[1:0]` is not 00 in a bus transaction (R111, R117). -/
  | misalignedOffset
deriving DecidableEq, Repr

/-- An operation as it is presented to the hardware: a 41-bit bus transaction (R111) or a 32-bit command word
(R112). -/
inductive Encoding where
  | bus (bits : BitVec 41)
  | cmd (word : Word)
deriving DecidableEq, Repr

/-- The commands of the opcode map (R114). -/
inductive CmdOp where
  | sha1Init | sha1Update | sha1Block | sha1Finish | hmacSha1 | hotpGen | totpGen
deriving DecidableEq, Repr

/-- One row of the opcode map: a word w selects the command when `w & mask = pattern` (R114). -/
structure CmdRow where
  op : CmdOp
  pattern : Word
  mask : Word
deriving DecidableEq, Repr

/-- The opcode map as mask and match pairs (R114). -/
def cmdRows : List CmdRow :=
  [ ⟨.sha1Init,   0x00000001#32, 0xFFFFF0FF#32⟩,
    ⟨.sha1Update, 0x00000002#32, 0xFFFFF0FF#32⟩,
    ⟨.sha1Block,  0x00000003#32, 0xFFFFF0FF#32⟩,
    ⟨.sha1Finish, 0x00000004#32, 0xFFFFF0FF#32⟩,
    ⟨.hmacSha1,   0x00000010#32, 0xFFFFFFFF#32⟩,
    ⟨.hotpGen,    0x00000020#32, 0xFF00EFFF#32⟩,
    ⟨.totpGen,    0x00000021#32, 0xFF00FFFF#32⟩ ]

/-- `OP`, bits [7:0] of a command word (R112). -/
def opField (w : Word) : BitVec 8 := w.extractLsb' 0 8

/-- `CTX`, bits [11:8] (R112). -/
def ctxField (w : Word) : BitVec 4 := w.extractLsb' 8 4

/-- `CKSUM`, bit [12] (R112). -/
def cksumField (w : Word) : Bool := w.getLsbD 12

/-- `DIGITS`, bits [23:16] (R112). -/
def digitsField (w : Word) : BitVec 8 := w.extractLsb' 16 8

/-- Does the word select the row's command (R114)? -/
def CmdRow.selects (r : CmdRow) (w : Word) : Bool := w &&& r.mask == r.pattern

/-- The command of a row with its fields taken from the word (R113, R115). -/
def CmdOp.build (w : Word) : CmdOp → Instr
  | .sha1Init => .sha1Init (ctxField w)
  | .sha1Update => .sha1Update (ctxField w)
  | .sha1Block => .sha1Block (ctxField w)
  | .sha1Finish => .sha1Finish (ctxField w)
  | .hmacSha1 => .hmacSha1
  | .hotpGen => .hotpGen (digitsField w) (cksumField w)
  | .totpGen => .totpGen (digitsField w)

/-- `Decode(w)` of R115: the first row that matches, else `ILLEGAL`. -/
def decodeCmd (w : Word) : Except DecodeError Instr :=
  match cmdRows.find? (fun r => r.selects w) with
  | some r => .ok (r.op.build w)
  | none => .error .illegalCommand

/-- The byte offset of a transaction, bits [39:32] (R111). -/
def busOffset (b : BitVec 41) : BitVec 8 := b.extractLsb' 32 8

/-- The data of a transaction, bits [31:0] (R111). -/
def busData (b : BitVec 41) : Word := b.extractLsb' 0 32

/-- A bus transaction (R111): bit [40] is `rw`; the data bits of a read are ignored. -/
def decodeBus (b : BitVec 41) : Except DecodeError Instr :=
  if alignedOffset (busOffset b) then
    if b.getLsbD 40 then .ok (.regWrite (busOffset b) (busData b)) else .ok (.regRead (busOffset b))
  else .error .misalignedOffset

/-- The decoder on whatever is presented to a port. -/
def decode : Encoding → Except DecodeError Instr
  | .bus b => decodeBus b
  | .cmd w => decodeCmd w

/-- The bus pattern `rw`, `offset`, `data` of R111. -/
def encodeBus (rw : Bool) (offset : BitVec 8) (data : Word) : BitVec 41 :=
  (BitVec.ofBool rw).setWidth 41 <<< 40 ||| offset.setWidth 41 <<< 32 ||| data.setWidth 41

/-- The command word of R112 from its fields, reserved bits zero. -/
def encodeCmd (op : BitVec 8) (ctx : BitVec 4) (cksum : Bool) (digits : BitVec 8) : Word :=
  op.setWidth 32 ||| ctx.setWidth 32 <<< 8 ||| (BitVec.ofBool cksum).setWidth 32 <<< 12 ||| digits.setWidth 32 <<< 16

/-- The encoder, from the tables of R111, R112 and R114. The ignored data bits of a read are written 0 (log 18). -/
def encode : Instr → Encoding
  | .regRead offset => .bus (encodeBus false offset 0#32)
  | .regWrite offset data => .bus (encodeBus true offset data)
  | .sha1Init c => .cmd (encodeCmd 0x01#8 c false 0#8)
  | .sha1Update c => .cmd (encodeCmd 0x02#8 c false 0#8)
  | .sha1Block c => .cmd (encodeCmd 0x03#8 c false 0#8)
  | .sha1Finish c => .cmd (encodeCmd 0x04#8 c false 0#8)
  | .hmacSha1 => .cmd (encodeCmd 0x10#8 0#4 false 0#8)
  | .hotpGen d k => .cmd (encodeCmd 0x20#8 0#4 k d)
  | .totpGen d => .cmd (encodeCmd 0x21#8 0#4 false d)

/-- The port a pattern of the opcode table is for, and its bits there: the table's CMD rows have 32 bits, its BUS rows
41 (48 in whole bytes). `none` when the number does not fit the format. -/
def tableEncoding (nbits w : Nat) : Option Encoding :=
  if nbits ≤ 32 then
    if w < 2 ^ 32 then some (.cmd (BitVec.ofNat 32 w)) else none
  else
    if w < 2 ^ 41 then some (.bus (BitVec.ofNat 41 w)) else none

/-- The operation the decoder reads from a pattern numbered as spec/opcode_table.json numbers it. -/
def decodeTableWord (nbits w : Nat) : Option Instr :=
  match tableEncoding nbits w with
  | some e => (decode e).toOption
  | none => none

end Sys2Proof
end

