-- ==== Sys2Proof/Config.lean ====
section
/-! DEFINITION. What an implementation fixes (00_scope.md R8) and the free values of the model. -/

namespace Sys2Proof

/-- The parameters the spec leaves OPEN that some rule reads (R8). They stand in `State.cfg` as plain data and no
step changes them, so a statement about every state is a statement about every value of them. `N_CTX` is the length
of `State.ctx` (log 2). -/
structure Config where
  /-- `MEM_SIZE`: bytes of DMEM the engine can read, 1..2^32 (R8, R84, D6). -/
  memSize : Nat
  /-- `DMEM_FAULT`: the DMEM byte addresses whose read fails (R8, R84, D8), each below `memSize`. -/
  dmemFault : List Nat
deriving DecidableEq, Repr

/-- The parameter values of `State.reset`. `memSize` is a DESIGN CHOICE (log 3): the value the spec's own vectors
assume. `dmemFault` is the spec's default, the empty set (R8, log 4). -/
def Config.default : Config := { memSize := 0x1000, dmemFault := [] }

/-- The spec's default number of streaming contexts (R8, D9). -/
def Config.defaultNCtx : Nat := 4

/-- The hardwired value of register `ID` (R41, D1). -/
def Config.idValue : Word := 0x53484131#32

/-- The free words of the model (log 1): word `k` of draw `n`, for a result the spec leaves unconstrained
(20_memory.md R93 item 3, U13). It has no body, so nothing can be proved of its value. -/
opaque Config.freeWord (n k : Nat) : Word

/-- The free byte string of draw `n` (log 1), for the pending bytes of a context whose update raced (R93 item 3). -/
opaque Config.freeBytes (n : Nat) : List Byte

end Sys2Proof
end

