-- ==== Sys2Proof/Machine/State.lean ====
section
/-! DEFINITION. The state of the machine as plain data (10_state.md R30 to R57), the reasons a step can stop, and the
state after reset (70_reset_and_hazards.md R310). -/

namespace Sys2Proof.Machine

/-- The five 32-bit words `H0..H4`, also the five working variables `a..e` and the five digest words (R31, R49). -/
structure Chain where
  h0 : Word
  h1 : Word
  h2 : Word
  h3 : Word
  h4 : Word
deriving DecidableEq, Repr

/-- All five words zero. -/
def Chain.zero : Chain := ⟨0#32, 0#32, 0#32, 0#32, 0#32⟩

/-- The lifecycle of a context (R31). -/
inductive CtxState where
  | invalid
  | active
  | consumed
deriving DecidableEq, Repr

/-- One streaming hash context `ctx[i]` (R31). -/
structure HashContext where
  state : CtxState
  h : Chain
  lenLo : Word
  lenHi : Word
  buf : List Byte
deriving DecidableEq, Repr

/-- A context after reset (R310). -/
def HashContext.reset : HashContext := ⟨.invalid, Chain.zero, 0#32, 0#32, []⟩

/-- The twelve argument registers (R43 to R47), live in `State.args` and copied into `LCMD` at acceptance (R143). -/
structure ArgRegs where
  msgAddr : Word
  msgLen : Word
  keyAddr : Word
  keyLen : Word
  cntLo : Word
  cntHi : Word
  timeLo : Word
  timeHi : Word
  t0Lo : Word
  t0Hi : Word
  step : Word
  truncOff : Word
deriving DecidableEq, Repr

/-- The argument registers after reset (R36, R310). -/
def ArgRegs.reset : ArgRegs :=
  ⟨0#32, 0#32, 0#32, 0#32, 0#32, 0#32, 0#32, 0#32, 0#32, 0#32, 0#32, 0#32⟩

/-- The latched command `LCMD` (R35, R143). -/
structure Lcmd where
  word : Word
  args : ArgRegs
deriving DecidableEq, Repr

/-- `ERRCODE.CODE` (60_exceptions.md R280); the reserved codes 8..15 are never produced (U9). -/
inductive ErrCode where
  | none
  | illegalCmd
  | badCtx
  | ctxState
  | blockLen
  | invalidDigits
  | invalidTimestamp
  | hashFailure
deriving DecidableEq, Repr

/-- `OTP_VALUE`, `OTP_TRUNC`, `OTP_STR0`, `OTP_STR1` (R50, R51). -/
structure OtpRegs where
  value : Word
  trunc : Word
  str0 : Word
  str1 : Word
deriving DecidableEq, Repr

/-- The OTP result registers after reset (R36, R310). -/
def OtpRegs.reset : OtpRegs := ⟨0#32, 0#32, 0#32, 0#32⟩

/-- The width of a host access to the register space; only `word` has a meaning (20_memory.md R87). -/
inductive BusSize where
  | byte
  | half
  | word
deriving DecidableEq, Repr

/-- One entry of `State.script`: a host step (R142), the engine's turn, or the reset input (log 8, log 17). -/
inductive Event where
  /-- A host access to the register space: its width and its 41 bits (R111). -/
  | bus (size : BusSize) (bits : BitVec 41)
  /-- A host write of DMEM bytes through the platform path (R80, R142). -/
  | dmemWrite (addr : Word) (bytes : List Byte)
  /-- The engine's turn: `Complete` when it is enabled (R145). -/
  | engine
  /-- The reset input is asserted (R310, R312). -/
  | reset
deriving DecidableEq, Repr

/-- DMEM as (address, byte) pairs: addresses strictly rising, no byte equal to what an unlisted address reads as
(`Memory.wf`). -/
abbrev Memory := List Host.Cell

/-- The whole state (R30). -/
structure State where
  /-- The streaming contexts; their number is `N_CTX` (R30, R31, log 2). -/
  ctx : List HashContext
  /-- `LCMD`, held exactly while `STATUS.BUSY = 1` (R35, log 6). -/
  lcmd : Option Lcmd
  /-- `CMD`, the last accepted command word (R37). -/
  cmd : Word
  /-- `STATUS.DONE` (R38). -/
  done : Bool
  /-- `STATUS.ERR` (R38). -/
  err : Bool
  /-- `STATUS.OVR` (R38). -/
  ovr : Bool
  /-- `ERRCODE.CODE` (R39). -/
  errcode : ErrCode
  /-- `CTRL.IE` (R40). -/
  ie : Bool
  /-- The live argument registers (R43 to R47). -/
  args : ArgRegs
  /-- `CTX_SEL.SEL` (R48). -/
  ctxSel : BitVec 4
  /-- `DIGEST0..DIGEST4` (R49). -/
  digest : Chain
  /-- The OTP result registers (R50, R51). -/
  otp : OtpRegs
  /-- `TOTP_CNT_LO` (R52). -/
  totpCntLo : Word
  /-- `TOTP_CNT_HI` (R52). -/
  totpCntHi : Word
  /-- DMEM (R80). -/
  dmem : Memory
  /-- The open parameters `MEM_SIZE` and `DMEM_FAULT` (R8); no step changes them. -/
  cfg : Config
  /-- The model's own: the host wrote DMEM inside a range of the executing command (R93 item 3, log 1). -/
  raced : Bool
  /-- The model's own: how many free draws have been made (log 1). -/
  draws : Nat
  /-- The model's own: the inputs still to come, next first (log 8). -/
  script : List Event
  /-- The model's own: the values the host's register reads returned, oldest first (R152, log 9). -/
  observed : List Word
deriving DecidableEq, Repr

/-- Why the machine stops with a fault. -/
inductive Fault where
  /-- Raised by the host's DMEM write step when an address of the write is not below `MEM_SIZE`, an address the spec
  says does not exist (R80). Safe: nothing is written and the run ends (log 13). -/
  | dmemNoSuchAddress
deriving DecidableEq, Repr

/-- Why a step has no meaning. -/
inductive Refusal where
  /-- Raised by an arm of `exec` whose operation has no meaning yet; no arm is left so. Safe. -/
  | notModelled (mnemonic : String)
  /-- Raised by a host access narrower than 32 bits: "a model refuses it (no step)" (R87). Safe (log 12). -/
  | busWidth
  /-- Raised by a host access at an offset that is not a multiple of 4: "a model refuses it (no step)" (R87).
  Safe (log 12). -/
  | busMisaligned
  /-- Raised by a command's meaning when no command is latched: `Complete` is enabled only when `BUSY = 1`
  (R142, R145). No step reaches it. Safe (log 14). -/
  | engineIdle
deriving DecidableEq, Repr

/-- The state after reset for given parameters (R310): every context INVALID and zero, every register 0, no command
held; DMEM with nothing listed (log 5). -/
def State.resetWith (nCtx : Nat) (cfg : Config) : State where
  ctx := List.replicate nCtx HashContext.reset
  lcmd := Option.none
  cmd := 0#32
  done := false
  err := false
  ovr := false
  errcode := .none
  ie := false
  args := ArgRegs.reset
  ctxSel := 0#4
  digest := Chain.zero
  otp := OtpRegs.reset
  totpCntLo := 0#32
  totpCntHi := 0#32
  dmem := []
  cfg := cfg
  raced := false
  draws := 0
  script := []
  observed := []

/-- The machine right after reset (R310), with the parameter values of logs 2 to 4. -/
def State.reset : State := State.resetWith Config.defaultNCtx Config.default

end Sys2Proof.Machine
end

