-- ==== Sys2Proof/Machine/Operands.lean ====
section
/-! DEFINITION. Operand forms: byte strings and byte order (00_scope.md R10, 20_memory.md R86), the register map
(10_state.md R36), the 64-bit operands made of register pairs (30_encoding.md R113) and the DMEM ranges of each command
(20_memory.md R82). -/

namespace Sys2Proof.Machine

/-- `BE32(s)` of a 4-byte string (R10). -/
def be32 (s : List Byte) : Word :=
  (s.getD 0 0#8).setWidth 32 <<< 24 ||| (s.getD 1 0#8).setWidth 32 <<< 16 |||
    (s.getD 2 0#8).setWidth 32 <<< 8 ||| (s.getD 3 0#8).setWidth 32

/-- `BE32bytes(w)`, the inverse of `BE32` (R10). -/
def be32bytes (w : Word) : List Byte :=
  [w.extractLsb' 24 8, w.extractLsb' 16 8, w.extractLsb' 8 8, w.extractLsb' 0 8]

/-- `BE64bytes(v)`, most significant byte first (R10). -/
def be64bytes (v : Dword) : List Byte :=
  [v.extractLsb' 56 8, v.extractLsb' 48 8, v.extractLsb' 40 8, v.extractLsb' 32 8,
   v.extractLsb' 24 8, v.extractLsb' 16 8, v.extractLsb' 8 8, v.extractLsb' 0 8]

/-- `zeros(n)` (R10). -/
def zeros (n : Nat) : List Byte := List.replicate n 0#8

/-- The digest as bytes, `BE32bytes(H0) ++ ... ++ BE32bytes(H4)` (R49, R181). -/
def Chain.bytes (c : Chain) : List Byte :=
  be32bytes c.h0 ++ be32bytes c.h1 ++ be32bytes c.h2 ++ be32bytes c.h3 ++ be32bytes c.h4

/-- The five words of a 20-byte digest: word j is `BE32(d[4j : 4j+4])` (R49, R232, R257). -/
def Chain.ofBytes (d : List Byte) : Chain :=
  ⟨be32 d, be32 (d.drop 4), be32 (d.drop 8), be32 (d.drop 12), be32 (d.drop 16)⟩

/-- `hi * 2^32 + lo` as a 64-bit value (R44, R113). -/
def dword (hi lo : Word) : Dword := hi.setWidth 64 <<< 32 ||| lo.setWidth 64

/-- `sint64(hi, lo)`, the two's-complement reading of `hi:lo` (R9, R45). -/
def sint64 (hi lo : Word) : Int := (dword hi lo).toInt

/-- The low 32 bits of a 64-bit value. -/
def loWord (v : Dword) : Word := v.extractLsb' 0 32

/-- The high 32 bits of a 64-bit value. -/
def hiWord (v : Dword) : Word := v.extractLsb' 32 32

/-- The register at each defined offset (R36). -/
def regMap : List (BitVec 8 × Reg) :=
  [ (0x00#8, .cmd), (0x04#8, .status), (0x08#8, .errcode), (0x0C#8, .ctrl), (0x10#8, .id), (0x14#8, .caps) ] ++
  [ (0x20#8, .msgAddr), (0x24#8, .msgLen), (0x28#8, .keyAddr), (0x2C#8, .keyLen), (0x30#8, .cntLo), (0x34#8, .cntHi),
    (0x38#8, .timeLo), (0x3C#8, .timeHi), (0x40#8, .t0Lo), (0x44#8, .t0Hi), (0x48#8, .step), (0x4C#8, .truncOff),
    (0x50#8, .ctxSel) ] ++
  [ (0x60#8, .digest0), (0x64#8, .digest1), (0x68#8, .digest2), (0x6C#8, .digest3), (0x70#8, .digest4),
    (0x80#8, .otpValue), (0x84#8, .otpTrunc), (0x88#8, .otpStr0), (0x8C#8, .otpStr1),
    (0x90#8, .totpCntLo), (0x94#8, .totpCntHi) ] ++
  [ (0xA0#8, .viewH0), (0xA4#8, .viewH1), (0xA8#8, .viewH2), (0xAC#8, .viewH3), (0xB0#8, .viewH4),
    (0xB4#8, .viewLenLo), (0xB8#8, .viewLenHi), (0xBC#8, .viewPlen), (0xC0#8, .viewState) ]

/-- The register at an offset; `none` for a reserved offset (R36, R54). -/
def Reg.ofOffset (offset : BitVec 8) : Option Reg :=
  (regMap.find? (fun p => p.1 == offset)).map Prod.snd

/-- The DMEM ranges a command reads, as (first address, length) pairs from the latched arguments (R82). -/
def readRanges (i : Instr) (a : ArgRegs) : List (Nat × Nat) :=
  match i with
  | .regRead _ => []
  | .regWrite _ _ => []
  | .sha1Init _ => []
  | .sha1Update _ => [(a.msgAddr.toNat, a.msgLen.toNat)]
  | .sha1Block _ => [(a.msgAddr.toNat, a.msgLen.toNat)]
  | .sha1Finish _ => []
  | .hmacSha1 => [(a.keyAddr.toNat, a.keyLen.toNat), (a.msgAddr.toNat, a.msgLen.toNat)]
  | .hotpGen _ _ => [(a.keyAddr.toNat, a.keyLen.toNat)]
  | .totpGen _ => [(a.keyAddr.toNat, a.keyLen.toNat)]

/-- The ranges the latched command reads (R82); an illegal word reads none. -/
def Lcmd.ranges (l : Lcmd) : List (Nat × Nat) :=
  match decodeCmd l.word with
  | .ok i => readRanges i l.args
  | .error _ => []

/-- Does the range of `n` bytes at `addr` share a byte with one of the ranges? -/
def touches (rs : List (Nat × Nat)) (addr n : Nat) : Bool :=
  rs.any (fun r => decide (max r.1 addr < min (r.1 + r.2) (addr + n)))

end Sys2Proof.Machine
end

