-- ==== Sys2Proof/Machine/Flags.lean ====
section
/-! DEFINITION. The status bits (10_state.md R38, R56), the numeric codes registers show (R31, R39, R280), the W1C write
of `STATUS` (40_host_interface.md R141) and the interrupt output (R55, R285). The hardware has no arithmetic flags
(R56). -/

namespace Sys2Proof.Machine

/-- One bit of a register word. -/
def bitAt (b : Bool) (n : Nat) : Word := (BitVec.ofBool b).setWidth 32 <<< n

/-- `STATUS.BUSY`: 1 exactly while `LCMD` is held (R35, log 6). -/
def State.busy (s : State) : Bool := s.lcmd.isSome

/-- `STATUS`: BUSY [0], DONE [1], ERR [2], OVR [3], reserved bits 0 (R38). -/
def State.statusWord (s : State) : Word := bitAt s.busy 0 ||| bitAt s.done 1 ||| bitAt s.err 2 ||| bitAt s.ovr 3

/-- The code of each error (R280). -/
def ErrCode.code : ErrCode → BitVec 4
  | .none => 0#4
  | .illegalCmd => 1#4
  | .badCtx => 2#4
  | .ctxState => 3#4
  | .blockLen => 4#4
  | .invalidDigits => 5#4
  | .invalidTimestamp => 6#4
  | .hashFailure => 7#4

/-- The encoding of a context's `STATE` (R31). -/
def CtxState.code : CtxState → BitVec 2
  | .invalid => 0#2
  | .active => 1#2
  | .consumed => 2#2

/-- What `VIEW_STATE` shows for an index that is no context, `NONE` (R53). -/
def viewStateNone : Word := 3#32

/-- The write of `data` to `STATUS`: a 1 clears DONE [1], ERR [2], OVR [3]; the other bits are ignored (R141). This is
how the host returns from an error: it clears `STATUS.ERR` (R286). -/
def State.clearStatus (data : Word) (s : State) : State :=
  { s with
    done := s.done && !data.getLsbD 1
    err := s.err && !data.getLsbD 2
    ovr := s.ovr && !data.getLsbD 3 }

/-- The interrupt output `IRQ = CTRL.IE & (STATUS.DONE | STATUS.ERR)` (R55, R285). -/
def State.irq (s : State) : Bool := s.ie && (s.done || s.err)

end Sys2Proof.Machine
end

