-- ==== Sys2Proof/Machine/Ops.lean ====
section
/-! DEFINITION. The named operations over DMEM and registers: the read primitive (20_memory.md R84), the host's DMEM
write, acceptance (40_host_interface.md R143), error entry (60_exceptions.md R284), commit (R147), the reset input
(70_reset_and_hazards.md R310 to R312), and the register reads and writes (10_state.md R36 to R54, R141). -/

namespace Sys2Proof.Machine

/-! ### DMEM -/

/-- What an unlisted DMEM byte reads as (log 5, DESIGN CHOICE: the spec gives DMEM no contents at power-on). -/
def Memory.unlisted : Byte := 0#8

/-- The byte at an address. -/
def Memory.get : Memory → Nat → Byte
  | [], _ => Memory.unlisted
  | (b, v) :: rest, a => if a = b then v else Memory.get rest a

/-- Puts a cell in its place, or takes the address out when the byte is what an unlisted address reads as. -/
def Memory.set : Memory → Nat → Byte → Memory
  | [], a, v => if v = Memory.unlisted then [] else [(a, v)]
  | (b, w) :: rest, a, v =>
    if a < b then (if v = Memory.unlisted then (b, w) :: rest else (a, v) :: (b, w) :: rest)
    else if a = b then (if v = Memory.unlisted then rest else (a, v) :: rest)
    else (b, w) :: Memory.set rest a v

/-- `n` bytes from `a` up. -/
def Memory.read (m : Memory) (a : Nat) : Nat → List Byte
  | 0 => []
  | n + 1 => m.get a :: Memory.read m (a + 1) n

/-- The bytes written one after another from `a` up. -/
def Memory.write (m : Memory) (a : Nat) : List Byte → Memory
  | [] => m
  | v :: rest => Memory.write (m.set a v) (a + 1) rest

/-- The canonical form: addresses strictly rising, no byte equal to what an unlisted address reads as. -/
def Memory.wf : Memory → Bool
  | [] => true
  | (a, v) :: rest => v != Memory.unlisted && rest.all (fun c => decide (a < c.1)) && Memory.wf rest

/-- `MemRead(addr, n)` (R84): an empty range never fails; a range past `MEM_SIZE` (exact sum) or with a byte in
`DMEM_FAULT` fails with `HASH_FAILURE`. -/
def memRead (s : State) (addr n : Word) : Except ErrCode (List Byte) :=
  if n = 0#32 then .ok []
  else if s.cfg.memSize < addr.toNat + n.toNat then .error .hashFailure
  else if s.cfg.dmemFault.any (fun a => decide (addr.toNat ≤ a ∧ a < addr.toNat + n.toNat)) then .error .hashFailure
  else .ok (s.dmem.read addr.toNat n.toNat)

/-- The host's write of DMEM bytes (R80, R142). It lands whole; while a command runs, a byte inside one of the command's
ranges marks the command's results as raced (R93 item 3, log 16). A write that names an address that does not exist
faults with nothing written (log 13). -/
def hostDmemWrite (addr : Word) (bytes : List Byte) (s : State) : Host.Outcome State Fault Refusal :=
  if bytes = [] ∨ addr.toNat + bytes.length ≤ s.cfg.memSize then
    .next { s with
      dmem := s.dmem.write addr.toNat bytes
      raced := s.raced || (match s.lcmd with
        | some l => touches l.ranges addr.toNat bytes.length
        | none => false) }
  else .fault .dmemNoSuchAddress

/-! ### The life of a command -/

/-- `Accept(w)` (R143): the word and a copy of every argument register are latched, DONE and ERR are cleared, BUSY is
set. -/
def State.accept (w : Word) (s : State) : State :=
  { s with
    cmd := w
    lcmd := some { word := w, args := s.args }
    done := false
    err := false
    raced := false }

/-- What a successful command writes (R145: "a set of writes to contexts and result registers"). -/
structure Effect where
  ctx : Option (BitVec 4 × HashContext) := none
  digest : Option Chain := none
  otp : Option OtpRegs := none
  totpCnt : Option Dword := none
deriving DecidableEq, Repr

/-- The same writes with every value a free one (R93 item 3, log 1): each result register the command writes, and `H`,
`LEN` and `BUF` of the context it updates. -/
def Effect.freed (n : Nat) (e : Effect) : Effect where
  ctx := e.ctx.map (fun p => (p.1, { p.2 with
    h := ⟨Config.freeWord n 0, Config.freeWord n 1, Config.freeWord n 2, Config.freeWord n 3, Config.freeWord n 4⟩
    lenLo := Config.freeWord n 5
    lenHi := Config.freeWord n 6
    buf := (Config.freeBytes n).take 63 }))
  digest := e.digest.map (fun _ =>
    ⟨Config.freeWord n 7, Config.freeWord n 8, Config.freeWord n 9, Config.freeWord n 10, Config.freeWord n 11⟩)
  otp := e.otp.map (fun _ =>
    ⟨Config.freeWord n 12, Config.freeWord n 13, Config.freeWord n 14, Config.freeWord n 15⟩)
  totpCnt := e.totpCnt.map (fun _ => dword (Config.freeWord n 16) (Config.freeWord n 17))

/-- Applies every write of an effect; what it does not name keeps its value. -/
def State.apply (e : Effect) (s : State) : State :=
  { s with
    ctx := match e.ctx with
      | some (c, x) => s.ctx.set c.toNat x
      | none => s.ctx
    digest := e.digest.getD s.digest
    otp := e.otp.getD s.otp
    totpCntLo := match e.totpCnt with
      | some v => loWord v
      | none => s.totpCntLo
    totpCntHi := match e.totpCnt with
      | some v => hiWord v
      | none => s.totpCntHi }

/-- Error entry (R284), `Commit(Err(c))` of R147: the cause is saved in `ERRCODE`, `STATUS.ERR` is set, the engine is
idle again, nothing else changes. The way back is `State.clearStatus` (R286). -/
def State.raiseError (c : ErrCode) (s : State) : State :=
  { s with errcode := c, err := true, lcmd := none, raced := false }

/-- `Commit(Ok(E))` of R147: every write of E at once, `ERRCODE` NONE, DONE set, the engine idle again. When the
command raced with a host DMEM write its values are free (R93 item 3) and one draw is used up. -/
def State.commitOk (e : Effect) (s : State) : State :=
  { s.apply (if s.raced then e.freed s.draws else e) with
    errcode := .none
    done := true
    lcmd := none
    raced := false
    draws := if s.raced then s.draws + 1 else s.draws }

/-- `Commit(r)` (R147). -/
def State.commit (r : Except ErrCode Effect) (s : State) : State :=
  match r with
  | .ok e => s.commitOk e
  | .error c => s.raiseError c

/-- `Complete` for one command (R145): `Execute` on the latched arguments, then `Commit`. It is enabled only while a
command is latched (R142, log 14). -/
def runCommand (execute : ArgRegs → State → Except ErrCode Effect) (s : State) : Host.Outcome State Fault Refusal :=
  match s.lcmd with
  | some l => .next (s.commit (execute l.args s))
  | none => .refused .engineIdle

/-- The common check of R146 that a streaming command's context exists: `BAD_CTX` when `CTX >= N_CTX`. -/
def lookupCtx (s : State) (c : BitVec 4) : Except ErrCode HashContext :=
  match s.ctx[c.toNat]? with
  | some x => .ok x
  | none => .error .badCtx

/-- The context-state check of R201, after the check of R146. -/
def lookupActive (s : State) (c : BitVec 4) : Except ErrCode HashContext :=
  match lookupCtx s c with
  | .ok x => if x.state = .active then .ok x else .error .ctxState
  | .error e => .error e

/-- The reset input (R310 to R312): every register and context at its reset value, a running command abandoned with
nothing committed, DMEM unchanged. What is the model's own goes on (log 17). -/
def State.resetInput (s : State) : State :=
  { State.resetWith s.ctx.length s.cfg with
    dmem := s.dmem, draws := s.draws, script := s.script, observed := s.observed }

/-! ### The register block -/

/-- The context `CTX_SEL.SEL` selects, if there is one (R53). -/
def State.viewCtx (s : State) : Option HashContext := s.ctx[s.ctxSel.toNat]?

/-- One field of the viewed context, 0 when the index is no context (R53). -/
def State.view (f : HashContext → Word) (s : State) : Word :=
  match s.viewCtx with
  | some x => f x
  | none => 0#32

/-- The value of each register (R36 to R53). -/
def State.readReg (s : State) : Reg → Word
  | .cmd => s.cmd
  | .status => s.statusWord
  | .errcode => s.errcode.code.setWidth 32
  | .ctrl => bitAt s.ie 0
  | .id => Config.idValue
  | .caps => (BitVec.ofNat 5 s.ctx.length).setWidth 32
  | .msgAddr => s.args.msgAddr
  | .msgLen => s.args.msgLen
  | .keyAddr => s.args.keyAddr
  | .keyLen => s.args.keyLen
  | .cntLo => s.args.cntLo
  | .cntHi => s.args.cntHi
  | .timeLo => s.args.timeLo
  | .timeHi => s.args.timeHi
  | .t0Lo => s.args.t0Lo
  | .t0Hi => s.args.t0Hi
  | .step => s.args.step
  | .truncOff => s.args.truncOff
  | .ctxSel => s.ctxSel.setWidth 32
  | .digest0 => s.digest.h0
  | .digest1 => s.digest.h1
  | .digest2 => s.digest.h2
  | .digest3 => s.digest.h3
  | .digest4 => s.digest.h4
  | .otpValue => s.otp.value
  | .otpTrunc => s.otp.trunc
  | .otpStr0 => s.otp.str0
  | .otpStr1 => s.otp.str1
  | .totpCntLo => s.totpCntLo
  | .totpCntHi => s.totpCntHi
  | .viewH0 => s.view (fun x => x.h.h0)
  | .viewH1 => s.view (fun x => x.h.h1)
  | .viewH2 => s.view (fun x => x.h.h2)
  | .viewH3 => s.view (fun x => x.h.h3)
  | .viewH4 => s.view (fun x => x.h.h4)
  | .viewLenLo => s.view (fun x => x.lenLo)
  | .viewLenHi => s.view (fun x => x.lenHi)
  | .viewPlen => s.view (fun x => (BitVec.ofNat 7 x.buf.length).setWidth 32)
  | .viewState => match s.viewCtx with
    | some x => x.state.code.setWidth 32
    | none => viewStateNone

/-- `value(offset)` of R140: 0 for a reserved offset (R54). -/
def State.regValue (s : State) (offset : BitVec 8) : Word :=
  match Reg.ofOffset offset with
  | some r => s.readReg r
  | none => 0#32

/-- The write of a register (R141): `CMD` launches or is dropped (R142, R144), `STATUS` is W1C, the RW registers store,
the RO registers ignore it. -/
def State.writeReg (data : Word) (s : State) : Reg → State
  | .cmd => if s.busy then { s with ovr := true } else s.accept data
  | .status => s.clearStatus data
  | .ctrl => { s with ie := data.getLsbD 0 }
  | .ctxSel => { s with ctxSel := data.extractLsb' 0 4 }
  | .msgAddr => { s with args := { s.args with msgAddr := data } }
  | .msgLen => { s with args := { s.args with msgLen := data } }
  | .keyAddr => { s with args := { s.args with keyAddr := data } }
  | .keyLen => { s with args := { s.args with keyLen := data } }
  | .cntLo => { s with args := { s.args with cntLo := data } }
  | .cntHi => { s with args := { s.args with cntHi := data } }
  | .timeLo => { s with args := { s.args with timeLo := data } }
  | .timeHi => { s with args := { s.args with timeHi := data } }
  | .t0Lo => { s with args := { s.args with t0Lo := data } }
  | .t0Hi => { s with args := { s.args with t0Hi := data } }
  | .step => { s with args := { s.args with step := data } }
  | .truncOff => { s with args := { s.args with truncOff := data } }
  | .errcode | .id | .caps => s
  | .digest0 | .digest1 | .digest2 | .digest3 | .digest4 => s
  | .otpValue | .otpTrunc | .otpStr0 | .otpStr1 | .totpCntLo | .totpCntHi => s
  | .viewH0 | .viewH1 | .viewH2 | .viewH3 | .viewH4 | .viewLenLo | .viewLenHi | .viewPlen | .viewState => s

/-- The write at an offset: a reserved one is ignored (R54, R141). -/
def State.writeOffset (offset : BitVec 8) (data : Word) (s : State) : State :=
  match Reg.ofOffset offset with
  | some r => s.writeReg data r
  | none => s

end Sys2Proof.Machine
end

