-- ==== Sys2Proof/Machine/HostBus.lean ====
section
/-! DEFINITION. The host's register transactions `REG_READ` and `REG_WRITE` (40_host_interface.md R140, R141). -/

namespace Sys2Proof.Machine

/-- `REG_READ(offset)` (R140): the value is handed to the host (`State.observed`, log 9) and nothing else changes; a
misaligned access is refused (R87). -/
def execRegRead (offset : BitVec 8) (s : State) : Host.Outcome State Fault Refusal :=
  if alignedOffset offset then .next { s with observed := s.observed ++ [s.regValue offset] }
  else .refused .busMisaligned

/-- `REG_WRITE(offset, data)` (R141); a misaligned access is refused (R87). -/
def execRegWrite (offset : BitVec 8) (data : Word) (s : State) : Host.Outcome State Fault Refusal :=
  if alignedOffset offset then .next (s.writeOffset offset data) else .refused .busMisaligned

end Sys2Proof.Machine
end

