-- ==== Sys2Proof/Machine/Compress.lean ====
section
/-! DEFINITION. The SHA-1 compression function, the padding and the whole hash (41_sha1_compress.md R170 to R184), and the
length counter (42_sha1_commands.md R203). Pure functions; the internal working state of 10_state.md R34 lives inside
`compress` (log 7). -/

namespace Sys2Proof.Machine

/-- `rotl32(x, n)` for 1 <= n <= 31 (R9, R171). -/
def rotl32 (x : Word) (n : Nat) : Word := x <<< n ||| x >>> (32 - n)

/-- The initial accumulators (R172). -/
def sha1IV : Chain := ⟨0x67452301#32, 0xEFCDAB89#32, 0x98BADCFE#32, 0x10325476#32, 0xC3D2E1F0#32⟩

/-- The round constant `K_t` of the stage `t div 20` (R173, R184). -/
def roundK (t : Nat) : Word :=
  match t / 20 with
  | 0 => 0x5A827999#32
  | 1 => 0x6ED9EBA1#32
  | 2 => 0x8F1BBCDC#32
  | _ => 0xCA62C1D6#32

/-- The selection function of stage 1 (R174). -/
def choose (b c d : Word) : Word := (b &&& c) ||| (~~~b &&& d)

/-- The parity function of stages 2 and 4 (R174). -/
def parity (b c d : Word) : Word := b ^^^ c ^^^ d

/-- The majority function of stage 3 (R174). -/
def majority (b c d : Word) : Word := (b &&& c) ||| (b &&& d) ||| (c &&& d)

/-- The round function `f_t` of the stage `t div 20` (R174, R184). -/
def roundF (t : Nat) (b c d : Word) : Word :=
  match t / 20 with
  | 0 => choose b c d
  | 1 => parity b c d
  | 2 => majority b c d
  | _ => parity b c d

/-- The working variables `a, b, c, d, e` (R34). -/
structure Work where
  a : Word
  b : Word
  c : Word
  d : Word
  e : Word
deriving DecidableEq, Repr

/-- The datapath's internal state: working variables, the 16-word schedule ring, the round index (R34, R183). -/
structure Datapath where
  v : Work
  ring : List Word
  t : Nat
deriving DecidableEq, Repr

/-- The ring filled with the big-endian words of the block (R86, R175). -/
def fillRing (blk : List Byte) : List Word := (List.range 16).map (fun j => be32 ((blk.drop (4 * j)).take 4))

/-- The ring at round t, with `W_t` formed in place for t >= 16 (R175, R177). -/
def scheduleRing (ring : List Word) (t : Nat) : List Word :=
  if t < 16 then ring
  else
    let w (i : Nat) : Word := ring.getD (i % 16) 0#32
    ring.set (t % 16) (rotl32 (w (t - 3) ^^^ w (t - 8) ^^^ w (t - 14) ^^^ w (t - 16)) 1)

/-- `Round(t, (a, b, c, d, e), W_t)` (R176). -/
def sha1Round (t : Nat) (v : Work) (w : Word) : Work where
  a := rotl32 v.a 5 + roundF t v.b v.c v.d + v.e + roundK t + w
  b := v.a
  c := rotl32 v.b 30
  d := v.c
  e := v.d

/-- One datapath step: form `W_t`, run round t, advance the index (R177, R183). -/
def Datapath.step (p : Datapath) : Datapath where
  v := sha1Round p.t p.v ((scheduleRing p.ring p.t).getD (p.t % 16) 0#32)
  ring := scheduleRing p.ring p.t
  t := p.t + 1

/-- `n` datapath steps. -/
def Datapath.run : Nat → Datapath → Datapath
  | 0, p => p
  | n + 1, p => Datapath.run n p.step

/-- Word-by-word addition of the working variables into the accumulators (R178). -/
def Chain.add (h : Chain) (v : Work) : Chain := ⟨h.h0 + v.a, h.h1 + v.b, h.h2 + v.c, h.h3 + v.d, h.h4 + v.e⟩

/-- The datapath before round 0 (R178). -/
def Datapath.start (h : Chain) (blk : List Byte) : Datapath :=
  { v := ⟨h.h0, h.h1, h.h2, h.h3, h.h4⟩, ring := fillRing blk, t := 0 }

/-- `Compress(H, blk)` (R178). -/
def compress (h : Chain) (blk : List Byte) : Chain := h.add ((Datapath.start h blk).run 80).v

/-- `n` blocks of the string compressed in order (R179). -/
def compressBlocks : Nat → Chain → List Byte → Chain
  | 0, h, _ => h
  | n + 1, h, data => compressBlocks n (compress h (data.take 64)) (data.drop 64)

/-- `CompressAll(H, data)` for a length that is a multiple of 64 (R179). -/
def compressAll (h : Chain) (data : List Byte) : Chain := compressBlocks (data.length / 64) h data

/-- `s[0 : 64k]` for k = |s| div 64: the whole blocks of a byte string (R181, R202). -/
def wholeBlocks (s : List Byte) : List Byte := s.take (64 * (s.length / 64))

/-- `s[64k : |s|]` for k = |s| div 64: the bytes after the whole blocks (R181, R202). -/
def tailBytes (s : List Byte) : List Byte := s.drop (64 * (s.length / 64))

/-- `Pad(buf, total)` (R180); the bit length is modulo 2^64. -/
def pad (buf : List Byte) (total : Dword) : List Byte :=
  buf ++ [0x80#8] ++ zeros (if buf.length ≤ 55 then 55 - buf.length else 119 - buf.length) ++
    be64bytes (8#64 * total)

/-- The accumulators `SHA1(m)` ends with (R181). -/
def sha1Chain (m : List Byte) : Chain :=
  compressAll (compressAll sha1IV (wholeBlocks m)) (pad (tailBytes m) (BitVec.ofNat 64 m.length))

/-- `SHA1(m)`, 20 bytes (R181). -/
def sha1 (m : List Byte) : List Byte := (sha1Chain m).bytes

/-- `AddLen` (R203): the two halves `(LEN_HI, LEN_LO)` after adding n, the carry into the high half, the carry out of it
discarded. -/
def addLen (hi lo : Word) (n : Nat) : Word × Word :=
  let sumLo := lo.toNat + n % 2 ^ 32
  (BitVec.ofNat 32 (hi.toNat + n / 2 ^ 32 + sumLo / 2 ^ 32), BitVec.ofNat 32 sumLo)

end Sys2Proof.Machine
end

