-- ==== Sys2Proof/Machine/Hmac.lean ====
section
/-! DEFINITION. HMAC-SHA1 (43_hmac.md R230 to R233). -/

namespace Sys2Proof.Machine

/-- `K0`: the key, reduced by SHA-1 when longer than 64 bytes, zero-padded to 64 bytes (R230). -/
def hmacK0 (key : List Byte) : List Byte :=
  if 64 < key.length then sha1 key ++ zeros (64 - (sha1 key).length) else key ++ zeros (64 - key.length)

/-- A pad block: each byte of `K0` XORed with the pad constant (R230). -/
def hmacPadBlock (p : Byte) (key : List Byte) : List Byte := (hmacK0 key).map (fun k => p ^^^ k)

/-- `HMAC(key, msg)`, 20 bytes (R230): inner pad 0x36, outer pad 0x5C. -/
def hmac (key msg : List Byte) : List Byte :=
  sha1 (hmacPadBlock 0x5C#8 key ++ sha1 (hmacPadBlock 0x36#8 key ++ msg))

/-- `Execute HMAC_SHA1` (R232): the key range is read before the message range. -/
def executeHmacSha1 (a : ArgRegs) (s : State) : Except ErrCode Effect :=
  match memRead s a.keyAddr a.keyLen with
  | .ok key =>
    match memRead s a.msgAddr a.msgLen with
    | .ok msg => .ok { digest := some (Chain.ofBytes (hmac key msg)) }
    | .error e => .error e
  | .error e => .error e

/-- `HMAC_SHA1` (R232); no streaming context takes part (R233). -/
def execHmacSha1 (s : State) : Host.Outcome State Fault Refusal := runCommand executeHmacSha1 s

end Sys2Proof.Machine
end

