-- ==== Sys2Proof/Machine/Otp.lean ====
section
/-! DEFINITION. The HOTP and TOTP generators (44_otp.md R250 to R265). -/

namespace Sys2Proof.Machine

/-- The window offset of `Trunc`: the digest's last nibble (R251). -/
def truncOffset (hs : List Byte) : Nat := (hs.getD 19 0#8 &&& 0x0F#8).toNat

/-- The 31-bit value `S` of `Trunc` (R251). -/
def truncValue (hs : List Byte) : Word :=
  (hs.getD (truncOffset hs) 0#8 &&& 0x7F#8).setWidth 32 <<< 24 |||
    (hs.getD (truncOffset hs + 1) 0#8).setWidth 32 <<< 16 |||
    (hs.getD (truncOffset hs + 2) 0#8).setWidth 32 <<< 8 |||
    (hs.getD (truncOffset hs + 3) 0#8).setWidth 32

/-- `Render(v, d)` (R252): d decimal digits, leftmost first, each in ASCII. -/
def render (v : Nat) : Nat → List Byte
  | 0 => []
  | d + 1 => render (v / 10) d ++ [0x30#8 + BitVec.ofNat 8 (v % 10)]

/-- `v = S mod 10^d` (R254 step 4). -/
def otpNumber (hs : List Byte) (d : Nat) : Nat := (truncValue hs).toNat % 10 ^ d

/-- Slots `k .. k+3` of the OTP string as one word, 0x00 past its end (R51, R257). -/
def slotWord (str : List Byte) (k : Nat) : Word := be32 (str.drop k)

/-- The OTP registers `WriteOTP` writes (R257). -/
def otpRegsOf (hs : List Byte) (d : Nat) : OtpRegs where
  value := BitVec.ofNat 32 (otpNumber hs d)
  trunc := truncValue hs
  str0 := slotWord (render (otpNumber hs d) d) 0
  str1 := slotWord (render (otpNumber hs d) d) 4

/-- Step 2 of `HOTP` (R250, R254): the HMAC of the counter's eight big-endian bytes. -/
def hotpHmac (secret : List Byte) (counter : Dword) : List Byte := hmac secret (be64bytes counter)

/-- The lengths R253 allows. -/
def validDigits (d : BitVec 8) : Bool := d == 6#8 || d == 7#8 || d == 8#8

/-- The HOTP counter `CNT_HI * 2^32 + CNT_LO` (R44, R256). -/
def ArgRegs.counter (a : ArgRegs) : Dword := dword a.cntHi a.cntLo

/-- `now` (R45, R260). -/
def ArgRegs.now (a : ArgRegs) : Int := sint64 a.timeHi a.timeLo

/-- `start_offset` (R45, R260). -/
def ArgRegs.startOffset (a : ArgRegs) : Int := sint64 a.t0Hi a.t0Lo

/-- The effective step: 30 when `STEP = 0` (R262). -/
def ArgRegs.effectiveStep (a : ArgRegs) : Nat := if a.step = 0#32 then 30 else a.step.toNat

/-- The TOTP counter for `now >= start_offset`: the exact difference over the step, rounded down (R263). -/
def ArgRegs.totpCounter (a : ArgRegs) : Nat := (a.now - a.startOffset).toNat / a.effectiveStep

/-- `Execute HOTP_GEN(d)` (R256); `CKSUM` and `TRUNC_OFF` take no part (R255). -/
def executeHotpGen (d : BitVec 8) (_cksum : Bool) (a : ArgRegs) (s : State) : Except ErrCode Effect :=
  if validDigits d then
    match memRead s a.keyAddr a.keyLen with
    | .ok secret =>
      .ok { digest := some (Chain.ofBytes (hotpHmac secret a.counter))
            otp := some (otpRegsOf (hotpHmac secret a.counter) d.toNat) }
    | .error e => .error e
  else .error .invalidDigits

/-- `Execute TOTP_GEN(d)` (R264). -/
def executeTotpGen (d : BitVec 8) (a : ArgRegs) (s : State) : Except ErrCode Effect :=
  if validDigits d then
    if a.now < a.startOffset then .error .invalidTimestamp
    else
      match memRead s a.keyAddr a.keyLen with
      | .ok secret =>
        .ok { digest := some (Chain.ofBytes (hotpHmac secret (BitVec.ofNat 64 a.totpCounter)))
              otp := some (otpRegsOf (hotpHmac secret (BitVec.ofNat 64 a.totpCounter)) d.toNat)
              totpCnt := some (BitVec.ofNat 64 a.totpCounter) }
      | .error e => .error e
  else .error .invalidDigits

/-- `HOTP_GEN` (R256). -/
def execHotpGen (d : BitVec 8) (cksum : Bool) (s : State) : Host.Outcome State Fault Refusal :=
  runCommand (executeHotpGen d cksum) s

/-- `TOTP_GEN` (R264). -/
def execTotpGen (d : BitVec 8) (s : State) : Host.Outcome State Fault Refusal := runCommand (executeTotpGen d) s

end Sys2Proof.Machine
end

