-- ==== Sys2Proof/Machine/Streaming.lean ====
section
/-! DEFINITION. The SHA-1 streaming commands (42_sha1_commands.md R200 to R211). Each `execute…` is the command's part of
`Execute`, each `exec…` its meaning. -/

namespace Sys2Proof.Machine

/-- `LEN` as one 64-bit value (R31). -/
def HashContext.len (x : HashContext) : Dword := dword x.lenHi x.lenLo

/-- The context `SHA1_INIT` leaves (R200). -/
def HashContext.fresh : HashContext := ⟨.active, sha1IV, 0#32, 0#32, []⟩

/-- Blocks compressed into a context: `H` and `LEN` move on, `BUF` stays (R202, R206, R207). -/
def HashContext.absorbBlocks (x : HashContext) (m : List Byte) : HashContext :=
  { x with
    h := compressAll x.h m
    lenLo := (addLen x.lenHi x.lenLo m.length).2
    lenHi := (addLen x.lenHi x.lenLo m.length).1 }

/-- The context after `SHA1_UPDATE` with the bytes m (R202). -/
def HashContext.absorb (x : HashContext) (m : List Byte) : HashContext :=
  { x.absorbBlocks (wholeBlocks (x.buf ++ m)) with buf := tailBytes (x.buf ++ m) }

/-- The bytes the length field counts: `(LEN + PLEN) mod 2^64` (R209, R210). -/
def HashContext.total (x : HashContext) : Dword := x.len + BitVec.ofNat 64 x.buf.length

/-- The digest `SHA1_FINISH` emits (R209). -/
def HashContext.finish (x : HashContext) : Chain := compressAll x.h (pad x.buf x.total)

/-- The context `SHA1_FINISH` leaves (R211). -/
def HashContext.spent : HashContext := ⟨.consumed, Chain.zero, 0#32, 0#32, []⟩

/-- `Execute SHA1_INIT(c)` (R200): legal in every `STATE`. -/
def executeSha1Init (c : BitVec 4) (_ : ArgRegs) (s : State) : Except ErrCode Effect :=
  match lookupCtx s c with
  | .ok _ => .ok { ctx := some (c, HashContext.fresh) }
  | .error e => .error e

/-- `Execute SHA1_UPDATE(c)` (R202). -/
def executeSha1Update (c : BitVec 4) (a : ArgRegs) (s : State) : Except ErrCode Effect :=
  match lookupActive s c with
  | .ok x =>
    match memRead s a.msgAddr a.msgLen with
    | .ok m => .ok { ctx := some (c, x.absorb m) }
    | .error e => .error e
  | .error e => .error e

/-- `Execute SHA1_BLOCK(c)` (R206). -/
def executeSha1Block (c : BitVec 4) (a : ArgRegs) (s : State) : Except ErrCode Effect :=
  match lookupActive s c with
  | .ok x =>
    if a.msgLen.toNat % 64 = 0 then
      match memRead s a.msgAddr a.msgLen with
      | .ok m => .ok { ctx := some (c, x.absorbBlocks m) }
      | .error e => .error e
    else .error .blockLen
  | .error e => .error e

/-- `Execute SHA1_FINISH(c)` (R209). -/
def executeSha1Finish (c : BitVec 4) (_ : ArgRegs) (s : State) : Except ErrCode Effect :=
  match lookupActive s c with
  | .ok x => .ok { ctx := some (c, HashContext.spent), digest := some x.finish }
  | .error e => .error e

/-- `SHA1_INIT` (R200). -/
def execSha1Init (c : BitVec 4) (s : State) : Host.Outcome State Fault Refusal := runCommand (executeSha1Init c) s

/-- `SHA1_UPDATE` (R202). -/
def execSha1Update (c : BitVec 4) (s : State) : Host.Outcome State Fault Refusal := runCommand (executeSha1Update c) s

/-- `SHA1_BLOCK` (R206). -/
def execSha1Block (c : BitVec 4) (s : State) : Host.Outcome State Fault Refusal := runCommand (executeSha1Block c) s

/-- `SHA1_FINISH` (R209). -/
def execSha1Finish (c : BitVec 4) (s : State) : Host.Outcome State Fault Refusal := runCommand (executeSha1Finish c) s

end Sys2Proof.Machine
end

