-- ==== Sys2Proof/Machine/Dispatch.lean ====
section
/-! DEFINITION. One arm per operation of spec/opcode_table.json. For a command, `exec` is the engine's `Complete` of it
(40_host_interface.md R145); for a bus transaction, the host's step (R140, R141). -/

namespace Sys2Proof.Machine

def exec (i : Instr) (s : State) : Host.Outcome State Fault Refusal :=
  match i with
  | .regRead offset => Sys2Proof.Machine.execRegRead offset s
  | .regWrite offset data => Sys2Proof.Machine.execRegWrite offset data s
  | .sha1Init c => Sys2Proof.Machine.execSha1Init c s
  | .sha1Update c => Sys2Proof.Machine.execSha1Update c s
  | .sha1Block c => Sys2Proof.Machine.execSha1Block c s
  | .sha1Finish c => Sys2Proof.Machine.execSha1Finish c s
  | .hmacSha1 => Sys2Proof.Machine.execHmacSha1 s
  | .hotpGen d k => Sys2Proof.Machine.execHotpGen d k s
  | .totpGen d => Sys2Proof.Machine.execTotpGen d s

end Sys2Proof.Machine
end

