-- ==== Sys2Proof/Machine/Engine.lean ====
section
/-! DEFINITION. How an operation reaches `exec`: the engine decodes its latched command, the host bus decodes a
transaction, and an entry of the script is one step (40_host_interface.md R142, R145, R146). `Step.lean` only calls
these. -/

namespace Sys2Proof.Machine

/-- The engine's turn (R142, R145): `Complete` when a command is latched, `ILLEGAL_CMD` when its word decodes to none
(R116, R146, log 11); otherwise not enabled, and the turn passes (log 8). -/
def engineTurn (s : State) : Host.Outcome State Fault Refusal :=
  match s.lcmd with
  | some l =>
    match decodeCmd l.word with
    | .ok i => exec i s
    | .error _ => .next (s.raiseError .illegalCmd)
  | none => .next s

/-- A host access to the register space: only an aligned 32-bit one has a meaning (R87, R117). -/
def busTransaction (size : BusSize) (bits : BitVec 41) (s : State) : Host.Outcome State Fault Refusal :=
  match size with
  | .word =>
    match decodeBus bits with
    | .ok i => exec i s
    | .error _ => .refused .busMisaligned
  | .byte => .refused .busWidth
  | .half => .refused .busWidth

/-- One entry of the script. -/
def runEvent (e : Event) (s : State) : Host.Outcome State Fault Refusal :=
  match e with
  | .bus size bits => busTransaction size bits s
  | .dmemWrite addr bytes => hostDmemWrite addr bytes s
  | .engine => engineTurn s
  | .reset => .next s.resetInput

/-- The next step of the machine: the next entry of the script, or, when the host has no more, the engine's turn
(R148, R152, log 8). -/
def nextStep (s : State) : Host.Outcome State Fault Refusal :=
  match s.script with
  | e :: rest => runEvent e { s with script := rest }
  | [] => engineTurn s

/-- Places an encoded operation where the next step takes its operation from (log 10): a command word is accepted as a
write to `CMD` would be (R142, R143) and the engine's turn comes next; a transaction comes next from the host. -/
def placeEncoding (e : Encoding) (s : State) : State :=
  match e with
  | .cmd w => { s.accept w with script := .engine :: s.script }
  | .bus b => { s with script := .bus .word b :: s.script }

/-- A pattern of the opcode table placed so that the next step runs it; a number that fits no format is cut to its
port's bits. -/
def placeTableWord (nbits w : Nat) (s : State) : State :=
  placeEncoding (if nbits ≤ 32 then .cmd (BitVec.ofNat 32 w) else .bus (BitVec.ofNat 41 w)) s

end Sys2Proof.Machine
end

