-- ==== Sys2Proof/Machine/Step.lean ====
section
/-! DEFINITION. One step of the machine (40_host_interface.md R142), and the placing of an operation for the next
step. -/

namespace Sys2Proof.Machine

/-- One step: one host step, one reset, or the engine's `Complete` (R142). -/
def step (s : State) : Host.Outcome State Fault Refusal := nextStep s

/-- The state with an operation placed so that the very next step runs it (log 10). -/
def State.withFetchWord (s : State) (nbits w : Nat) : State := placeTableWord nbits w s

end Sys2Proof.Machine
end

