-- ==== Sys2Proof/Safety.lean ====
section
/-! DEFINITION. What a well-formed state is (00_scope.md R8, 10_state.md R30 to R42) and what a context has absorbed
(42_sha1_commands.md R204, R208): the terms the statements use. -/

namespace Sys2Proof.Machine

/-- The bounds of the open parameters (R8, D6, D8): `1 <= MEM_SIZE <= 2^32`, `DMEM_FAULT` inside DMEM. -/
abbrev ConfigWf (c : Config) : Prop :=
  1 ≤ c.memSize ∧ c.memSize ≤ 2 ^ 32 ∧ ∀ a ∈ c.dmemFault, a < c.memSize

/-- The context invariants R32 (a) and (c): fewer than 64 pending bytes; zero and empty unless ACTIVE. -/
abbrev HashContext.Wf (x : HashContext) : Prop :=
  x.buf.length < 64 ∧
  (x.state ≠ .active → x.h = Chain.zero ∧ x.lenLo = 0#32 ∧ x.lenHi = 0#32 ∧ x.buf = [])

/-- The context invariant R32 (b): `LEN mod 64 = 0`. -/
abbrev HashContext.LenWhole (x : HashContext) : Prop := x.len.toNat % 64 = 0

/-- DMEM in canonical form and inside `[0, MEM_SIZE)` (R80). -/
abbrev State.DmemWf (s : State) : Prop := s.dmem.wf = true ∧ ∀ c ∈ s.dmem, c.1 < s.cfg.memSize

/-- Does the latched command read DMEM (R82)? -/
def State.commandReads (s : State) : Bool :=
  match s.lcmd with
  | some l => !l.ranges.isEmpty
  | none => false

/-- The status bits: DONE and ERR never both 1 (R38), both 0 while BUSY = 1 (R143), and a race only while a command that
reads DMEM executes (R93 item 3). -/
abbrev State.StatusWf (s : State) : Prop :=
  (s.done = true → s.err = false) ∧
  (s.busy = true → s.done = false ∧ s.err = false) ∧
  (s.raced = true → s.commandReads = true)

/-- A well-formed state: parameters in their bounds, 1 to 16 contexts (R8, R42), every context within R32 (a) and (c),
DMEM canonical, the status bits legal. -/
abbrev State.Wf (s : State) : Prop :=
  ConfigWf s.cfg ∧ (1 ≤ s.ctx.length ∧ s.ctx.length ≤ 16) ∧ (∀ x ∈ s.ctx, x.Wf) ∧ s.DmemWf ∧ s.StatusWf

/-- What a context has absorbed (R202 to R208): the bytes `X` compressed (whole blocks) and the bytes `p` pending. -/
def HashContext.Holds (x : HashContext) (X p : List Byte) : Prop :=
  x.state = .active ∧ X.length % 64 = 0 ∧ x.h = compressAll sha1IV X ∧ x.len = BitVec.ofNat 64 X.length ∧
  x.buf = p ∧ p.length < 64

/-- Error entry as R284 describes it, spelled out for the statements: the cause and ERR are set, the engine is idle,
nothing else changes. -/
def failedWith (c : ErrCode) (s : State) : Host.Outcome State Fault Refusal :=
  .next { s with errcode := c, err := true, lcmd := none, raced := false }

end Sys2Proof.Machine

namespace Sys2Proof

/-- Is the operation a command, executed by the engine (R110)? -/
def Instr.isCommand : Instr → Bool
  | .regRead _ => false
  | .regWrite _ _ => false
  | .sha1Init _ => true
  | .sha1Update _ => true
  | .sha1Block _ => true
  | .sha1Finish _ => true
  | .hmacSha1 => true
  | .hotpGen _ _ => true
  | .totpGen _ => true

/-- The context a streaming command names (R113). -/
def Instr.ctxOf : Instr → Option (BitVec 4)
  | .regRead _ => none
  | .regWrite _ _ => none
  | .sha1Init c => some c
  | .sha1Update c => some c
  | .sha1Block c => some c
  | .sha1Finish c => some c
  | .hmacSha1 => none
  | .hotpGen _ _ => none
  | .totpGen _ => none

/-- Does the command write `DIGEST0..4` (R49)? -/
def Instr.writesDigest : Instr → Bool
  | .regRead _ => false
  | .regWrite _ _ => false
  | .sha1Init _ => false
  | .sha1Update _ => false
  | .sha1Block _ => false
  | .sha1Finish _ => true
  | .hmacSha1 => true
  | .hotpGen _ _ => true
  | .totpGen _ => true

/-- Does the command write the OTP registers (R50, R51)? -/
def Instr.writesOtp : Instr → Bool
  | .regRead _ => false
  | .regWrite _ _ => false
  | .sha1Init _ => false
  | .sha1Update _ => false
  | .sha1Block _ => false
  | .sha1Finish _ => false
  | .hmacSha1 => false
  | .hotpGen _ _ => true
  | .totpGen _ => true

/-- Does the command write `TOTP_CNT_LO/HI` (R52)? -/
def Instr.writesTotpCnt : Instr → Bool
  | .regRead _ => false
  | .regWrite _ _ => false
  | .sha1Init _ => false
  | .sha1Update _ => false
  | .sha1Block _ => false
  | .sha1Finish _ => false
  | .hmacSha1 => false
  | .hotpGen _ _ => false
  | .totpGen _ => true

end Sys2Proof
end

