-- ==== Sys2Proof/Certificates/Slice0/Obligations.lean ====
section
/-! DEFINITION. The statements for the provers, from the numbered rules of spec/. A result statement is an equality with a
record update of the state before, so it is the instruction's frame too: every field it does not name is unchanged.
`{ s with raced := false }` and the like touch the model's own fields (logs 1, 6, 8, 9). -/

open Sys2Proof Sys2Proof.Machine

/-! ### Encoding (30_encoding.md) -/

/-- Every well-formed operation decodes from its own encoding, with every operand at every value (R111, R112, R114,
R115). -/
def Obligations.DecodeOfEncode : Prop :=
  ∀ i : Instr, i.wf = true → decode (encode i) = .ok i

/-- A command word or a write transaction that decodes is the encoding of what it decodes to: no two words share a
meaning (R111, R112, R115). A read's data bits are ignored, so reads are left out. -/
def Obligations.AcceptedPatternHasOneMeaning : Prop :=
  ∀ (e : Encoding) (i : Instr), decode e = .ok i → (∀ o, i ≠ .regRead o) → encode i = e

/-- A command word decodes exactly when its `OP` is in the map of R114 and every must-be-zero field of its row is zero
(R112, R114, R116). -/
def Obligations.CommandWordLegalIff : Prop :=
  ∀ w : Word, (∃ i, decodeCmd w = .ok i) ↔
    w.extractLsb' 24 8 = 0#8 ∧ w.extractLsb' 13 3 = 0#3 ∧
    (((opField w = 0x01#8 ∨ opField w = 0x02#8 ∨ opField w = 0x03#8 ∨ opField w = 0x04#8) ∧
        cksumField w = false ∧ digitsField w = 0#8) ∨
     (opField w = 0x10#8 ∧ ctxField w = 0#4 ∧ cksumField w = false ∧ digitsField w = 0#8) ∨
     (opField w = 0x20#8 ∧ ctxField w = 0#4) ∨
     (opField w = 0x21#8 ∧ ctxField w = 0#4 ∧ cksumField w = false))

/-- Words of 30_encoding.md R120 and 95_test_vectors.md section 2.6 and program P1, written out as the spec writes
them. -/
def Obligations.ListedWordsDecode : Prop :=
  decodeCmd 0x00000301#32 = .ok (.sha1Init 3#4) ∧
  decodeCmd 0x00000F02#32 = .ok (.sha1Update 15#4) ∧
  decodeCmd 0x00000003#32 = .ok (.sha1Block 0#4) ∧
  decodeCmd 0x00000104#32 = .ok (.sha1Finish 1#4) ∧
  decodeCmd 0x00000010#32 = .ok .hmacSha1 ∧
  decodeCmd 0x00061020#32 = .ok (.hotpGen 6#8 true) ∧
  decodeCmd 0x00FF0021#32 = .ok (.totpGen 255#8) ∧
  decodeCmd 0x00000000#32 = .error .illegalCommand ∧
  decodeCmd 0x00081021#32 = .error .illegalCommand ∧
  decodeBus 0x12000000100#41 = .ok (.regWrite 0x20#8 0x00000100#32) ∧
  decodeBus 0x00400000000#41 = .ok (.regRead 0x04#8)

/-! ### The step (40_host_interface.md) -/

/-- A step runs the decoded operation: the engine's turn runs the latched command, a word access of the host runs its
transaction, each on the state with its entry taken from the script; with an empty script the engine has the turn, and
with no command latched its turn changes nothing (R140 to R142, R145, R148; the order of the inputs and the passed turn
are the model's, log 8). -/
def Obligations.StepRunsDecodedOperation : Prop :=
  (∀ (s : State) (l : Lcmd) (i : Instr) (rest : List Event),
    s.script = .engine :: rest → s.lcmd = some l → decodeCmd l.word = .ok i →
      step s = exec i { s with script := rest }) ∧
  (∀ (s : State) (l : Lcmd) (i : Instr),
    s.script = [] → s.lcmd = some l → decodeCmd l.word = .ok i → step s = exec i s) ∧
  (∀ (s : State) (b : BitVec 41) (i : Instr) (rest : List Event),
    s.script = .bus .word b :: rest → decodeBus b = .ok i → step s = exec i { s with script := rest }) ∧
  (∀ (s : State) (rest : List Event),
    s.script = .engine :: rest → s.lcmd = none → step s = .next { s with script := rest }) ∧
  (∀ s : State, s.script = [] → s.lcmd = none → step s = .next s)

/-- A placed operation is the one the next step runs: a command on the state that accepted its word, a transaction on
the state as it was (log 10, the model's own placing; R142, R143). -/
def Obligations.PlacedOperationRunsNext : Prop :=
  (∀ (s : State) (w : Word) (i : Instr), decodeCmd w = .ok i →
    step (s.withFetchWord 32 w.toNat) = exec i (s.accept w)) ∧
  (∀ (s : State) (b : BitVec 41) (i : Instr), decodeBus b = .ok i →
    step (s.withFetchWord 48 b.toNat) = exec i s)

/-- An aligned 32-bit access is one whole step; an access of another width or at an offset that is not a multiple of 4 is
refused (R87). Which refusal it is, and that the width is asked before the alignment, are the model's choice (log 12). -/
def Obligations.OnlyAlignedWordAccesses : Prop :=
  ∀ (s : State) (size : BusSize) (b : BitVec 41) (rest : List Event), s.script = .bus size b :: rest →
    (size = .word → (busOffset b).toNat % 4 = 0 → ∃ t, step s = .next t) ∧
    (size = .word → (busOffset b).toNat % 4 ≠ 0 → step s = .refused .busMisaligned) ∧
    (size ≠ .word → step s = .refused .busWidth)

/-- An illegal word written to `CMD` while idle is accepted and then completes with `ILLEGAL_CMD`, changing nothing else
(R116, R143, R147): the host's write and the engine's turn, one after the other (log 11). -/
def Obligations.IllegalWordReported : Prop :=
  ∀ (s : State) (w : Word) (rest : List Event),
    s.lcmd = none → decodeCmd w = .error .illegalCommand →
    s.script = .bus .word (encodeBus true 0x00#8 w) :: .engine :: rest →
    ∃ t, step s = .next t ∧ t.busy = true ∧
      step t = .next { s with
        cmd := w, errcode := .illegalCmd, done := false, err := true, raced := false, script := rest }

/-- The reset input: whatever the machine was doing, every register and context takes its reset value, no command is
held, DMEM stays (R310, R311, R312); that the parameters and the model's own fields go on is the model's choice (log 17). -/
def Obligations.ResetInputState : Prop :=
  ∀ (s : State) (rest : List Event), s.script = .reset :: rest →
    step s = .next {
      ctx := List.replicate s.ctx.length ⟨.invalid, ⟨0#32, 0#32, 0#32, 0#32, 0#32⟩, 0#32, 0#32, []⟩
      lcmd := none, cmd := 0#32, done := false, err := false, ovr := false, errcode := .none, ie := false
      args := ⟨0#32, 0#32, 0#32, 0#32, 0#32, 0#32, 0#32, 0#32, 0#32, 0#32, 0#32, 0#32⟩
      ctxSel := 0#4, digest := ⟨0#32, 0#32, 0#32, 0#32, 0#32⟩, otp := ⟨0#32, 0#32, 0#32, 0#32⟩
      totpCntLo := 0#32, totpCntHi := 0#32, dmem := s.dmem, cfg := s.cfg, raced := false, draws := s.draws
      script := rest, observed := s.observed }

/-- What the host reads after reset: every offset reads 0 but `ID` and `CAPS`, the interrupt output is low, every context
is INVALID and zero and no command is held (R310). -/
def Obligations.RegistersAfterReset : Prop :=
  ∀ s : State, 1 ≤ s.ctx.length → s.ctx.length ≤ 16 →
    (∀ offset : BitVec 8, s.resetInput.regValue offset =
      if offset = 0x10#8 then 0x53484131#32
      else if offset = 0x14#8 then BitVec.ofNat 32 s.ctx.length
      else 0#32) ∧
    s.resetInput.irq = false ∧ s.resetInput.lcmd = none ∧ s.resetInput.errcode = .none ∧
    (∀ x ∈ s.resetInput.ctx, x = ⟨.invalid, ⟨0#32, 0#32, 0#32, 0#32, 0#32⟩, 0#32, 0#32, []⟩)

/-! ### Register reads (10_state.md, R140) -/

/-- `REG_READ` hands the register's value to the host and changes nothing else; it completes at every aligned offset
(R90, R140). -/
def Obligations.RegReadReturnsValue : Prop :=
  ∀ (s : State) (offset : BitVec 8), offset.toNat % 4 = 0 →
    exec (.regRead offset) s = .next { s with observed := s.observed ++ [s.regValue offset] }

/-- The registers as a read returns them: `CMD` (R37), `STATUS` bit by bit (R38), `ERRCODE` by code (R39, R280), the
argument registers (R43 to R47), `CTX_SEL` (R48), the digest words in order (R49), the OTP results (R50, R51) and the TOTP
counter's halves (R52). -/
def Obligations.RegisterValuesRead : Prop :=
  ∀ s : State,
    s.regValue 0x00#8 = s.cmd ∧
    ((s.regValue 0x04#8).getLsbD 0 = s.lcmd.isSome ∧
      (s.regValue 0x04#8).getLsbD 1 = s.done ∧
      (s.regValue 0x04#8).getLsbD 2 = s.err ∧
      (s.regValue 0x04#8).getLsbD 3 = s.ovr ∧
      (∀ k, 4 ≤ k → (s.regValue 0x04#8).getLsbD k = false)) ∧
    s.regValue 0x08#8 = (match s.errcode with
      | .none => 0#32
      | .illegalCmd => 1#32
      | .badCtx => 2#32
      | .ctxState => 3#32
      | .blockLen => 4#32
      | .invalidDigits => 5#32
      | .invalidTimestamp => 6#32
      | .hashFailure => 7#32) ∧
    (s.regValue 0x20#8 = s.args.msgAddr ∧ s.regValue 0x24#8 = s.args.msgLen ∧
      s.regValue 0x28#8 = s.args.keyAddr ∧ s.regValue 0x2C#8 = s.args.keyLen ∧
      s.regValue 0x30#8 = s.args.cntLo ∧ s.regValue 0x34#8 = s.args.cntHi ∧
      s.regValue 0x38#8 = s.args.timeLo ∧ s.regValue 0x3C#8 = s.args.timeHi ∧
      s.regValue 0x40#8 = s.args.t0Lo ∧ s.regValue 0x44#8 = s.args.t0Hi ∧
      s.regValue 0x48#8 = s.args.step ∧ s.regValue 0x4C#8 = s.args.truncOff) ∧
    (s.regValue 0x50#8).toNat = s.ctxSel.toNat ∧
    (s.regValue 0x60#8 = s.digest.h0 ∧ s.regValue 0x64#8 = s.digest.h1 ∧ s.regValue 0x68#8 = s.digest.h2 ∧
      s.regValue 0x6C#8 = s.digest.h3 ∧ s.regValue 0x70#8 = s.digest.h4) ∧
    (s.regValue 0x80#8 = s.otp.value ∧ s.regValue 0x84#8 = s.otp.trunc ∧
      s.regValue 0x88#8 = s.otp.str0 ∧ s.regValue 0x8C#8 = s.otp.str1) ∧
    s.regValue 0x90#8 = s.totpCntLo ∧ s.regValue 0x94#8 = s.totpCntHi

/-- `ID` is hardwired and a write of it changes nothing (R41). -/
def Obligations.IdHardwired : Prop :=
  ∀ (s : State) (data : Word),
    s.regValue 0x10#8 = 0x53484131#32 ∧ exec (.regWrite 0x10#8 data) s = .next s

/-- `CAPS` shows the number of contexts in bits [4:0], the rest 0, and a write of it changes nothing (R42). -/
def Obligations.CapsHardwired : Prop :=
  ∀ (s : State) (data : Word), 1 ≤ s.ctx.length → s.ctx.length ≤ 16 →
    s.regValue 0x14#8 = BitVec.ofNat 32 s.ctx.length ∧
    (∀ k, 5 ≤ k → (s.regValue 0x14#8).getLsbD k = false) ∧
    exec (.regWrite 0x14#8 data) s = .next s

/-- `CTRL`: bit [0] is `IE`, read and written, 0 after reset, and it enables the completion interrupt (R55); the other
bits read 0 and their writes are ignored (R40). -/
def Obligations.CtrlRegister : Prop :=
  (∀ (s : State) (data : Word),
    (s.regValue 0x0C#8).getLsbD 0 = s.ie ∧
    (∀ k, 1 ≤ k → (s.regValue 0x0C#8).getLsbD k = false) ∧
    exec (.regWrite 0x0C#8 data) s = .next { s with ie := data.getLsbD 0 } ∧
    (s.irq = true → s.ie = true) ∧ (s.ie = true → s.irq = (s.done || s.err))) ∧
  State.reset.ie = false

/-- The view registers show the context `CTX_SEL` selects, 0 (and `NONE` for the state) when there is none; they ignore
writes, read 0 after reset, do not show the pending bytes, and no step that leaves a command executing changes a context
(R53). -/
def Obligations.ContextViews : Prop :=
  (∀ (s : State) (x : HashContext), s.ctx[s.ctxSel.toNat]? = some x → x.buf.length < 64 →
    s.regValue 0xA0#8 = x.h.h0 ∧ s.regValue 0xA4#8 = x.h.h1 ∧ s.regValue 0xA8#8 = x.h.h2 ∧
    s.regValue 0xAC#8 = x.h.h3 ∧ s.regValue 0xB0#8 = x.h.h4 ∧
    s.regValue 0xB4#8 = x.lenLo ∧ s.regValue 0xB8#8 = x.lenHi ∧
    s.regValue 0xBC#8 = BitVec.ofNat 32 x.buf.length ∧
    s.regValue 0xC0#8 = (match x.state with
      | .invalid => 0#32
      | .active => 1#32
      | .consumed => 2#32)) ∧
  (∀ s : State, s.ctx.length ≤ s.ctxSel.toNat →
    (∀ offset ∈ [0xA0#8, 0xA4#8, 0xA8#8, 0xAC#8, 0xB0#8, 0xB4#8, 0xB8#8, 0xBC#8], s.regValue offset = 0#32) ∧
    s.regValue 0xC0#8 = 3#32) ∧
  (∀ offset ∈ [0xA0#8, 0xA4#8, 0xA8#8, 0xAC#8, 0xB0#8, 0xB4#8, 0xB8#8, 0xBC#8, 0xC0#8],
    (∀ (s : State) (data : Word), exec (.regWrite offset data) s = .next s) ∧
    (∀ (s : State) (l : Option Lcmd), ({ s with lcmd := l } : State).regValue offset = s.regValue offset) ∧
    State.reset.regValue offset = 0#32) ∧
  (∀ (s : State) (c : Nat) (x : HashContext) (b : List Byte) (offset : BitVec 8),
    s.ctx[c]? = some x → b.length = x.buf.length →
    ({ s with ctx := s.ctx.set c { x with buf := b } } : State).regValue offset = s.regValue offset) ∧
  (∀ s t : State, step s = .next t → t.busy = true → t.ctx = s.ctx)

/-- Reserved offsets read 0 and ignore writes; the reserved bits of `STATUS`, `ERRCODE`, `CTRL`, `CAPS`, `CTX_SEL`,
`VIEW_PLEN` and `VIEW_STATE` read 0, and writes of the reserved bits of the registers a write can change are ignored
(R54). -/
def Obligations.ReservedSpace : Prop :=
  (∀ (s : State) (offset : BitVec 8) (data : Word), offset.toNat % 4 = 0 →
    (0x18 ≤ offset.toNat ∧ offset.toNat ≤ 0x1C ∨ 0x54 ≤ offset.toNat ∧ offset.toNat ≤ 0x5C ∨
      0x74 ≤ offset.toNat ∧ offset.toNat ≤ 0x7C ∨ 0x98 ≤ offset.toNat ∧ offset.toNat ≤ 0x9C ∨
      0xC4 ≤ offset.toNat) →
    s.regValue offset = 0#32 ∧ exec (.regWrite offset data) s = .next s) ∧
  (∀ (s : State) (k : Nat),
    (4 ≤ k → (s.regValue 0x04#8).getLsbD k = false ∧ (s.regValue 0x08#8).getLsbD k = false ∧
      (s.regValue 0x50#8).getLsbD k = false) ∧
    (1 ≤ k → (s.regValue 0x0C#8).getLsbD k = false) ∧
    (5 ≤ k → (s.regValue 0x14#8).getLsbD k = false) ∧
    (7 ≤ k → (s.regValue 0xBC#8).getLsbD k = false) ∧
    (2 ≤ k → (s.regValue 0xC0#8).getLsbD k = false)) ∧
  (∀ (s : State) (data : Word),
    exec (.regWrite 0x04#8 data) s = exec (.regWrite 0x04#8 (data &&& 0xE#32)) s ∧
    exec (.regWrite 0x0C#8 data) s = exec (.regWrite 0x0C#8 (data &&& 0x1#32)) s ∧
    exec (.regWrite 0x50#8 data) s = exec (.regWrite 0x50#8 (data &&& 0xF#32)) s)

/-! ### Register writes and the life of a command (40_host_interface.md) -/

/-- `REG_WRITE` by offset: the pseudocode of R141. -/
def Obligations.RegWriteByOffset : Prop :=
  ∀ (s : State) (d : Word),
    exec (.regWrite 0x00#8 d) s = (if s.lcmd.isSome then .next { s with ovr := true } else .next (s.accept d)) ∧
    exec (.regWrite 0x04#8 d) s = .next { s with
      done := if d.getLsbD 1 then false else s.done
      err := if d.getLsbD 2 then false else s.err
      ovr := if d.getLsbD 3 then false else s.ovr } ∧
    exec (.regWrite 0x0C#8 d) s = .next { s with ie := d.getLsbD 0 } ∧
    exec (.regWrite 0x50#8 d) s = .next { s with ctxSel := d.extractLsb' 0 4 } ∧
    exec (.regWrite 0x20#8 d) s = .next { s with args := { s.args with msgAddr := d } } ∧
    exec (.regWrite 0x24#8 d) s = .next { s with args := { s.args with msgLen := d } } ∧
    exec (.regWrite 0x28#8 d) s = .next { s with args := { s.args with keyAddr := d } } ∧
    exec (.regWrite 0x2C#8 d) s = .next { s with args := { s.args with keyLen := d } } ∧
    exec (.regWrite 0x30#8 d) s = .next { s with args := { s.args with cntLo := d } } ∧
    exec (.regWrite 0x34#8 d) s = .next { s with args := { s.args with cntHi := d } } ∧
    exec (.regWrite 0x38#8 d) s = .next { s with args := { s.args with timeLo := d } } ∧
    exec (.regWrite 0x3C#8 d) s = .next { s with args := { s.args with timeHi := d } } ∧
    exec (.regWrite 0x40#8 d) s = .next { s with args := { s.args with t0Lo := d } } ∧
    exec (.regWrite 0x44#8 d) s = .next { s with args := { s.args with t0Hi := d } } ∧
    exec (.regWrite 0x48#8 d) s = .next { s with args := { s.args with step := d } } ∧
    exec (.regWrite 0x4C#8 d) s = .next { s with args := { s.args with truncOff := d } } ∧
    (∀ offset : BitVec 8, offset.toNat % 4 = 0 →
      offset ∉ [0x00#8, 0x04#8, 0x0C#8, 0x50#8] → ¬ (0x20 ≤ offset.toNat ∧ offset.toNat ≤ 0x4C) →
      exec (.regWrite offset d) s = .next s)

/-- Writing an argument register stores the value and changes no other register's value, nor the latched command (R43 to
R47, R150). -/
def Obligations.ArgumentRegistersStore : Prop :=
  ∀ (s : State) (d : Word) (offset : BitVec 8),
    offset.toNat % 4 = 0 → 0x20 ≤ offset.toNat → offset.toNat ≤ 0x4C →
    ∃ t, exec (.regWrite offset d) s = .next t ∧ t.regValue offset = d ∧ t.lcmd = s.lcmd ∧
      ∀ other : BitVec 8, other ≠ offset → t.regValue other = s.regValue other

/-- What any register write leaves alone: contexts, error code, results, DMEM, parameters, the host's observations (R90,
R141). -/
def Obligations.RegWriteFrame : Prop :=
  ∀ (s t : State) (offset : BitVec 8) (d : Word), exec (.regWrite offset d) s = .next t →
    t.ctx = s.ctx ∧ t.errcode = s.errcode ∧ t.digest = s.digest ∧ t.otp = s.otp ∧
    t.totpCntLo = s.totpCntLo ∧ t.totpCntHi = s.totpCntHi ∧ (∀ a, t.dmem.get a = s.dmem.get a) ∧ t.cfg = s.cfg ∧
    t.draws = s.draws ∧ t.script = s.script ∧ t.observed = s.observed

/-- A write to `CMD`. While idle it is `Accept`: the word and a copy of every argument register are latched, DONE and ERR
are cleared, BUSY is set, nothing else changes (R143). While BUSY = 1 it is dropped and sets `OVR`, and nothing else
changes (R144). An executing command reads its operands from `LCMD`, never from the live registers (R143); said of a
command the host did not race with, since R93 item 3 leaves a raced result unconstrained (log 1). -/
def Obligations.CommandWriteLatchesOrIsDropped : Prop :=
  (∀ (s : State) (w : Word), s.lcmd = none →
    exec (.regWrite 0x00#8 w) s = .next { s with
      cmd := w, lcmd := some { word := w, args := s.args }, done := false, err := false, raced := false }) ∧
  (∀ (s : State) (l : Lcmd) (w : Word), s.lcmd = some l →
    exec (.regWrite 0x00#8 w) s = .next { s with ovr := true }) ∧
  (∀ (s t : State) (a : ArgRegs) (i : Instr), i.isCommand = true → s.raced = false → exec i s = .next t →
    exec i { s with args := a } = .next { t with args := a })

/-- The interrupt output is `IE & (DONE | ERR)`: low while masked, raised by either completion when enabled, lowered by
acceptance and by clearing both bits, blind to `OVR` (R55, R285). -/
def Obligations.InterruptOutput : Prop :=
  ∀ s : State,
    (s.irq = true ↔ s.ie = true ∧ (s.done = true ∨ s.err = true)) ∧
    (∀ e, s.ie = true → (s.commitOk e).irq = true) ∧
    (∀ c, s.ie = true → (s.raiseError c).irq = true) ∧
    (∀ w, (s.accept w).irq = false) ∧
    (s.clearStatus 0x6#32).irq = false ∧
    (∀ b, ({ s with ovr := b } : State).irq = s.irq)

/-! ### The result of each command (42_sha1_commands.md, 43_hmac.md, 44_otp.md). The state names the latched command `l`;
`s.raced = false` says the host left the operands alone (R321), the raced case is `RacedCommandKeepsOutcome`. -/

/-- `SHA1_INIT` completes on every context, in every `STATE` (R172, R200). -/
def Obligations.Sha1InitResult : Prop :=
  ∀ (s : State) (l : Lcmd) (c : BitVec 4), s.lcmd = some l → s.raced = false → c.toNat < s.ctx.length →
    exec (.sha1Init c) s = .next { s with
      ctx := s.ctx.set c.toNat
        ⟨.active, ⟨0x67452301#32, 0xEFCDAB89#32, 0x98BADCFE#32, 0x10325476#32, 0xC3D2E1F0#32⟩, 0#32, 0#32, []⟩
      errcode := .none, done := true, lcmd := none }

/-- `SHA1_UPDATE` on an ACTIVE context with a readable message: every whole block of `BUF ++ m` is compressed, the rest
stays pending, `LEN` grows by the bytes compressed (R202, R203). -/
def Obligations.Sha1UpdateResult : Prop :=
  ∀ (s : State) (l : Lcmd) (c : BitVec 4) (x : HashContext) (m : List Byte),
    s.lcmd = some l → s.raced = false → s.ctx[c.toNat]? = some x → x.state = .active →
    memRead s l.args.msgAddr l.args.msgLen = .ok m →
    exec (.sha1Update c) s = .next { s with
      ctx := s.ctx.set c.toNat {
        state := .active
        h := compressAll x.h ((x.buf ++ m).take (64 * ((x.buf ++ m).length / 64)))
        lenLo := (addLen x.lenHi x.lenLo (64 * ((x.buf ++ m).length / 64))).2
        lenHi := (addLen x.lenHi x.lenLo (64 * ((x.buf ++ m).length / 64))).1
        buf := (x.buf ++ m).drop (64 * ((x.buf ++ m).length / 64)) }
      errcode := .none, done := true, lcmd := none }

/-- `SHA1_BLOCK` on an ACTIVE context with a readable message of whole blocks: the blocks are compressed, `LEN` grows by
`MSG_LEN`, `BUF` is unchanged (R206, R207). -/
def Obligations.Sha1BlockResult : Prop :=
  ∀ (s : State) (l : Lcmd) (c : BitVec 4) (x : HashContext) (m : List Byte),
    s.lcmd = some l → s.raced = false → s.ctx[c.toNat]? = some x → x.state = .active →
    l.args.msgLen.toNat % 64 = 0 → memRead s l.args.msgAddr l.args.msgLen = .ok m →
    exec (.sha1Block c) s = .next { s with
      ctx := s.ctx.set c.toNat { x with
        h := compressAll x.h m
        lenLo := (addLen x.lenHi x.lenLo l.args.msgLen.toNat).2
        lenHi := (addLen x.lenHi x.lenLo l.args.msgLen.toNat).1 }
      errcode := .none, done := true, lcmd := none }

/-- `SHA1_FINISH` on an ACTIVE context: the digest of the padded rest is emitted, the context is CONSUMED and zero (R209,
R210, R211). -/
def Obligations.Sha1FinishResult : Prop :=
  ∀ (s : State) (l : Lcmd) (c : BitVec 4) (x : HashContext),
    s.lcmd = some l → s.raced = false → s.ctx[c.toNat]? = some x → x.state = .active →
    exec (.sha1Finish c) s = .next { s with
      ctx := s.ctx.set c.toNat ⟨.consumed, ⟨0#32, 0#32, 0#32, 0#32, 0#32⟩, 0#32, 0#32, []⟩
      digest := compressAll x.h (pad x.buf (dword x.lenHi x.lenLo + BitVec.ofNat 64 x.buf.length))
      errcode := .none, done := true, lcmd := none }

/-- `HMAC`, with `K0` the key, or its SHA-1 when longer than 64 bytes, and zeros up to 64 (R230); and `HMAC_SHA1` with
readable key and message: `DIGEST0..4` are the words of the HMAC, nothing else of the results or contexts changes (R232,
R233). -/
def Obligations.HmacResult : Prop :=
  (∀ key msg k k0 : List Byte,
    k = (if 64 < key.length then sha1 key else key) → k0 = k ++ List.replicate (64 - k.length) 0#8 →
    hmac key msg = sha1 (k0.map (fun b => 0x5C#8 ^^^ b) ++ sha1 (k0.map (fun b => 0x36#8 ^^^ b) ++ msg))) ∧
  (∀ (s : State) (l : Lcmd) (key msg : List Byte),
    s.lcmd = some l → s.raced = false →
    memRead s l.args.keyAddr l.args.keyLen = .ok key → memRead s l.args.msgAddr l.args.msgLen = .ok msg →
    exec .hmacSha1 s = .next { s with
      digest := Chain.ofBytes (hmac key msg), errcode := .none, done := true, lcmd := none })

/-- `HOTP_GEN` with 6, 7 or 8 digits and a readable secret: the HMAC of the counter, its truncation, the number and the
string (R250 to R257). -/
def Obligations.HotpResult : Prop :=
  ∀ (s : State) (l : Lcmd) (d : BitVec 8) (k : Bool) (secret hs : List Byte),
    s.lcmd = some l → s.raced = false → (d = 6#8 ∨ d = 7#8 ∨ d = 8#8) →
    memRead s l.args.keyAddr l.args.keyLen = .ok secret →
    hs = hmac secret (be64bytes (dword l.args.cntHi l.args.cntLo)) →
    exec (.hotpGen d k) s = .next { s with
      digest := Chain.ofBytes hs
      otp := {
        value := BitVec.ofNat 32 ((truncValue hs).toNat % 10 ^ d.toNat)
        trunc := truncValue hs
        str0 := be32 (render ((truncValue hs).toNat % 10 ^ d.toNat) d.toNat)
        str1 := be32 ((render ((truncValue hs).toNat % 10 ^ d.toNat) d.toNat).drop 4) }
      errcode := .none, done := true, lcmd := none }

/-- `TOTP_GEN` with 6, 7 or 8 digits, `now >= start_offset` and a readable secret: the HOTP results for the counter
`(now - start_offset) div step`, and the counter in `TOTP_CNT` (R260 to R264). -/
def Obligations.TotpResult : Prop :=
  ∀ (s : State) (l : Lcmd) (d : BitVec 8) (secret hs : List Byte) (counter : Dword),
    s.lcmd = some l → s.raced = false → (d = 6#8 ∨ d = 7#8 ∨ d = 8#8) →
    sint64 l.args.t0Hi l.args.t0Lo ≤ sint64 l.args.timeHi l.args.timeLo →
    memRead s l.args.keyAddr l.args.keyLen = .ok secret →
    counter = BitVec.ofNat 64 ((sint64 l.args.timeHi l.args.timeLo - sint64 l.args.t0Hi l.args.t0Lo).toNat /
      (if l.args.step = 0#32 then 30 else l.args.step.toNat)) →
    hs = hmac secret (be64bytes counter) →
    exec (.totpGen d) s = .next { s with
      digest := Chain.ofBytes hs
      otp := {
        value := BitVec.ofNat 32 ((truncValue hs).toNat % 10 ^ d.toNat)
        trunc := truncValue hs
        str0 := be32 (render ((truncValue hs).toNat % 10 ^ d.toNat) d.toNat)
        str1 := be32 ((render ((truncValue hs).toNat % 10 ^ d.toNat) d.toNat).drop 4) }
      totpCntLo := counter.extractLsb' 0 32
      totpCntHi := counter.extractLsb' 32 32
      errcode := .none, done := true, lcmd := none }

/-! ### The errors of the commands (60_exceptions.md R280, R282, R284) -/

/-- The context check comes first among the streaming commands' checks: an index that is no context gives `BAD_CTX` (R146,
R282). -/
def Obligations.BadContextReported : Prop :=
  ∀ (s : State) (l : Lcmd) (c : BitVec 4), s.lcmd = some l → s.ctx.length ≤ c.toNat →
    ∀ i ∈ [Instr.sha1Init c, .sha1Update c, .sha1Block c, .sha1Finish c], exec i s = failedWith .badCtx s

/-- A context that is not ACTIVE gives `CTX_STATE`, whatever the operands and DMEM are (R201). -/
def Obligations.InactiveContextReported : Prop :=
  ∀ (s : State) (l : Lcmd) (c : BitVec 4) (x : HashContext),
    s.lcmd = some l → s.ctx[c.toNat]? = some x → x.state ≠ .active →
    ∀ i ∈ [Instr.sha1Update c, .sha1Block c, .sha1Finish c], exec i s = failedWith .ctxState s

/-- `SHA1_BLOCK` on an ACTIVE context with a length that is no multiple of 64 gives `BLOCK_LEN`, before any DMEM read
(R206, R282). -/
def Obligations.BlockLengthReported : Prop :=
  ∀ (s : State) (l : Lcmd) (c : BitVec 4) (x : HashContext),
    s.lcmd = some l → s.ctx[c.toNat]? = some x → x.state = .active → l.args.msgLen.toNat % 64 ≠ 0 →
    exec (.sha1Block c) s = failedWith .blockLen s

/-- The valid lengths are 6, 7 and 8; any other makes both OTP commands fail with `INVALID_DIGITS` before any DMEM read,
and a valid one never does (R253). -/
def Obligations.InvalidDigitsReported : Prop :=
  ∀ (s : State) (l : Lcmd) (d : BitVec 8) (k : Bool), s.lcmd = some l →
    (d.toNat ≠ 6 → d.toNat ≠ 7 → d.toNat ≠ 8 →
      exec (.hotpGen d k) s = failedWith .invalidDigits s ∧ exec (.totpGen d) s = failedWith .invalidDigits s) ∧
    (d.toNat = 6 ∨ d.toNat = 7 ∨ d.toNat = 8 →
      ∃ t u, exec (.hotpGen d k) s = .next t ∧ t.errcode ≠ .invalidDigits ∧
        exec (.totpGen d) s = .next u ∧ u.errcode ≠ .invalidDigits)

/-- `TOTP_GEN` with valid digits and `now < start_offset`, compared as signed integers, fails with `INVALID_TIMESTAMP`
(R261). -/
def Obligations.EarlyTimestampReported : Prop :=
  ∀ (s : State) (l : Lcmd) (d : BitVec 8), s.lcmd = some l → (d = 6#8 ∨ d = 7#8 ∨ d = 8#8) →
    sint64 l.args.timeHi l.args.timeLo < sint64 l.args.t0Hi l.args.t0Lo →
    exec (.totpGen d) s = failedWith .invalidTimestamp s

/-- A command whose earlier checks pass and whose range cannot be read fails with `HASH_FAILURE` (R84, R282). -/
def Obligations.HashFailureReported : Prop :=
  ∀ (s : State) (l : Lcmd) (c : ErrCode), s.lcmd = some l →
    (∀ (i : BitVec 4) (x : HashContext), s.ctx[i.toNat]? = some x → x.state = .active →
      memRead s l.args.msgAddr l.args.msgLen = .error c →
      exec (.sha1Update i) s = failedWith .hashFailure s ∧
      (l.args.msgLen.toNat % 64 = 0 → exec (.sha1Block i) s = failedWith .hashFailure s)) ∧
    (memRead s l.args.keyAddr l.args.keyLen = .error c ∨ memRead s l.args.msgAddr l.args.msgLen = .error c →
      exec .hmacSha1 s = failedWith .hashFailure s) ∧
    (∀ (d : BitVec 8) (k : Bool), (d = 6#8 ∨ d = 7#8 ∨ d = 8#8) → memRead s l.args.keyAddr l.args.keyLen = .error c →
      exec (.hotpGen d k) s = failedWith .hashFailure s ∧
      (sint64 l.args.t0Hi l.args.t0Lo ≤ sint64 l.args.timeHi l.args.timeLo →
        exec (.totpGen d) s = failedWith .hashFailure s))

/-- `MemRead`: an empty range reads nothing and never fails; a sum past `MEM_SIZE`, taken without wrap, or a byte in
`DMEM_FAULT` fails; otherwise the bytes of the range, in order (R84). -/
def Obligations.MemReadByCases : Prop :=
  ∀ (s : State) (a n : Word),
    (n = 0#32 → memRead s a n = .ok []) ∧
    (n ≠ 0#32 → s.cfg.memSize < a.toNat + n.toNat → memRead s a n = .error .hashFailure) ∧
    (n ≠ 0#32 → (∃ f ∈ s.cfg.dmemFault, a.toNat ≤ f ∧ f < a.toNat + n.toNat) →
      memRead s a n = .error .hashFailure) ∧
    (n ≠ 0#32 → a.toNat + n.toNat ≤ s.cfg.memSize →
      (∀ f ∈ s.cfg.dmemFault, f < a.toNat ∨ a.toNat + n.toNat ≤ f) →
      ∃ m, memRead s a n = .ok m ∧ m.length = n.toNat ∧
        ∀ i, i < n.toNat → m[i]? = some (s.dmem.get (a.toNat + i)))

/-- Errors are precise: when a command ends in error, the state is the state before it, but for the error code, ERR and
the engine's being idle again (R284). -/
def Obligations.ErrorsArePrecise : Prop :=
  ∀ (s t : State) (i : Instr), i.isCommand = true → s.err = false → exec i s = .next t → t.err = true →
    t.errcode ≠ .none ∧ t = { s with errcode := t.errcode, err := true, lcmd := none, raced := false }

/-- Every latched command completes in one engine step, in exactly one of two ways: DONE with `ERRCODE` NONE, or ERR with
a cause (R147, R148). -/
def Obligations.CommandEndsOneOfTwoWays : Prop :=
  ∀ (s : State) (l : Lcmd), s.lcmd = some l → s.done = false → s.err = false →
    (s.script = [] ∨ ∃ rest, s.script = .engine :: rest) →
    ∃ t, step s = .next t ∧ t.busy = false ∧
      ((t.done = true ∧ t.err = false ∧ t.errcode = .none) ∨
       (t.done = false ∧ t.err = true ∧ t.errcode ≠ .none ∧
        t = { s with errcode := t.errcode, err := true, lcmd := none, raced := false, script := s.script.tail }))

/-! ### Frames -/

/-- No command touches the host's registers, the DMEM, the parameters or the host's inputs; it leaves the engine idle (R83,
R147, R233). -/
def Obligations.CommandsLeaveHostStateAlone : Prop :=
  ∀ (s t : State) (i : Instr), i.isCommand = true → exec i s = .next t →
    t.cmd = s.cmd ∧ t.ovr = s.ovr ∧ t.ie = s.ie ∧ t.args = s.args ∧ t.ctxSel = s.ctxSel ∧ t.cfg = s.cfg ∧
    t.script = s.script ∧ t.observed = s.observed ∧ t.lcmd = none ∧ t.ctx.length = s.ctx.length ∧
    ∀ a, t.dmem.get a = s.dmem.get a

/-- Each result register is written only by the commands the spec names for it (R49 to R52). -/
def Obligations.ResultsOnlyFromTheirCommands : Prop :=
  ∀ (s t : State) (i : Instr), i.isCommand = true → exec i s = .next t →
    (i.writesDigest = false → t.digest = s.digest) ∧
    (i.writesOtp = false → t.otp = s.otp) ∧
    (i.writesTotpCnt = false → t.totpCntLo = s.totpCntLo ∧ t.totpCntHi = s.totpCntHi)

/-- A command changes no context but the one its `CTX` field names; the composite commands change none (R94, R233). -/
def Obligations.OtherContextsUntouched : Prop :=
  ∀ (s t : State) (i : Instr) (j : Nat), i.isCommand = true → exec i s = .next t →
    (∀ c, i.ctxOf = some c → c.toNat ≠ j) → t.ctx[j]? = s.ctx[j]?

/-- Only the host writes DMEM: a step that is not a host DMEM write leaves every byte as it was; and what a command
changes is a context, a result register, the error code, the status bits and the model's own fields (R83). -/
def Obligations.EngineNeverWritesDmem : Prop :=
  (∀ (s t : State), (∀ a b rest, s.script ≠ .dmemWrite a b :: rest) → step s = .next t →
    ∀ a, t.dmem.get a = s.dmem.get a) ∧
  (∀ (s t : State) (i : Instr), i.isCommand = true → exec i s = .next t →
    t = { s with
      ctx := t.ctx, digest := t.digest, otp := t.otp, totpCntLo := t.totpCntLo, totpCntHi := t.totpCntHi
      errcode := t.errcode, done := t.done, err := t.err, lcmd := t.lcmd, raced := t.raced, draws := t.draws })

/-- The host's DMEM write, as a step: inside DMEM it lands whole, every byte of the range taking its new value and every
other byte unchanged; a write of no bytes changes nothing at any address; a range past `MEM_SIZE` faults (R80, R142; one
step for a string, the empty write and the fault are the model's choice, log 13). -/
def Obligations.HostDmemWriteBytes : Prop :=
  ∀ (s : State) (addr : Word) (bytes : List Byte) (rest : List Event),
    s.script = .dmemWrite addr bytes :: rest → s.dmem.wf = true →
    (bytes = [] → step s = .next { s with script := rest }) ∧
    (addr.toNat + bytes.length ≤ s.cfg.memSize →
      ∃ t, step s = .next t ∧
        t = { s with dmem := t.dmem, raced := t.raced, script := rest } ∧
        (∀ i v, bytes[i]? = some v → t.dmem.get (addr.toNat + i) = v) ∧
        (∀ a, a < addr.toNat ∨ addr.toNat + bytes.length ≤ a → t.dmem.get a = s.dmem.get a)) ∧
    (bytes ≠ [] → s.cfg.memSize < addr.toNat + bytes.length → step s = .fault .dmemNoSuchAddress)

/-- The race mark: a host DMEM write marks the executing command exactly when it writes a byte of one of the ranges the
table of R82 gives it, and never marks an illegal word (R82, R93 item 3; the mark is the model's own field, log 1,
log 16). -/
def Obligations.RaceMarkedExactly : Prop :=
  ∀ (s t : State) (l : Lcmd) (addr : Word) (bytes : List Byte) (rest : List Event),
    s.script = .dmemWrite addr bytes :: rest → s.lcmd = some l → s.raced = false → step s = .next t →
    (∀ i : Instr, decodeCmd l.word = .ok i →
      (t.raced = true ↔ ∃ a, addr.toNat ≤ a ∧ a < addr.toNat + bytes.length ∧
        (match i with
          | .sha1Update _ | .sha1Block _ => l.args.msgAddr.toNat ≤ a ∧ a < l.args.msgAddr.toNat + l.args.msgLen.toNat
          | .hmacSha1 =>
            l.args.keyAddr.toNat ≤ a ∧ a < l.args.keyAddr.toNat + l.args.keyLen.toNat ∨
            l.args.msgAddr.toNat ≤ a ∧ a < l.args.msgAddr.toNat + l.args.msgLen.toNat
          | .hotpGen _ _ | .totpGen _ =>
            l.args.keyAddr.toNat ≤ a ∧ a < l.args.keyAddr.toNat + l.args.keyLen.toNat
          | .sha1Init _ | .sha1Finish _ | .regRead _ | .regWrite _ _ => False))) ∧
    (decodeCmd l.word = .error .illegalCommand → t.raced = false)

/-- A raced command succeeds or fails exactly as the same command unraced, with the same code, and a failing one commits no
value. Only the values R93 item 3 names may differ: `H`, `LEN` and `BUF` of the context it updates, whose `STATE` agrees,
and the result registers it writes (R93 item 3; the free values are the model's form, log 1). -/
def Obligations.RacedCommandKeepsOutcome : Prop :=
  ∀ (s : State) (l : Lcmd) (i : Instr), i.isCommand = true → s.lcmd = some l → s.raced = true →
    ∃ t u, exec i s = .next t ∧ exec i { s with raced := false } = .next u ∧
      t = { u with
        ctx := t.ctx, digest := t.digest, otp := t.otp, totpCntLo := t.totpCntLo, totpCntHi := t.totpCntHi
        draws := t.draws } ∧
      t.ctx.map HashContext.state = u.ctx.map HashContext.state ∧
      (∀ j : Nat, (∀ c, i.ctxOf = some c → c.toNat ≠ j) → t.ctx[j]? = u.ctx[j]?) ∧
      (i.writesDigest = false → t.digest = u.digest) ∧
      (i.writesOtp = false → t.otp = u.otp) ∧
      (i.writesTotpCnt = false → t.totpCntLo = u.totpCntLo ∧ t.totpCntHi = u.totpCntHi) ∧
      (u.errcode ≠ .none → t = u)

/-- Result registers and contexts change only when a command completes without error, or by the reset input (R151). -/
def Obligations.ResultsChangeOnlyAtCommit : Prop :=
  ∀ (s t : State), step s = .next t →
    (t.digest ≠ s.digest ∨ t.otp ≠ s.otp ∨ t.totpCntLo ≠ s.totpCntLo ∨ t.totpCntHi ≠ s.totpCntHi ∨ t.ctx ≠ s.ctx) →
    (s.busy = true ∧ t.busy = false ∧ t.done = true ∧ t.errcode = .none) ∨ ∃ rest, s.script = .reset :: rest

/-! ### Functions (41_sha1_compress.md to 44_otp.md) -/

/-- The SHA-1 function from its rules. `Compress` is the word-by-word sum of the accumulators and the working variables
after 80 rounds `r` over the unrolled schedule `w`, with `f_t` and `K_t` by the ranges of t (R170 to R178; the round sum,
two of the round functions and the wrap are general knowledge, as the rules mark them); `CompressAll` takes the blocks in
order (R179); `SHA1` compresses the whole blocks, then the padded rest, and writes out the five words (R172, R181). -/
def Obligations.Sha1FromRounds : Prop :=
  (∀ (h : Chain) (blk : List Byte) (w : Nat → Word) (r : Nat → Work), blk.length = 64 →
    (∀ j, j < 16 → (w j).toNat =
      (blk.getD (4 * j) 0#8).toNat * 2 ^ 24 + (blk.getD (4 * j + 1) 0#8).toNat * 2 ^ 16 +
        (blk.getD (4 * j + 2) 0#8).toNat * 2 ^ 8 + (blk.getD (4 * j + 3) 0#8).toNat) →
    (∀ t, t < 80 → 16 ≤ t → w t = (w (t - 3) ^^^ w (t - 8) ^^^ w (t - 14) ^^^ w (t - 16)).rotateLeft 1) →
    r 0 = ⟨h.h0, h.h1, h.h2, h.h3, h.h4⟩ →
    (∀ t, t < 80 → r (t + 1) = {
      a := (r t).a.rotateLeft 5 +
        (if t ≤ 19 then ((r t).b &&& (r t).c) ||| (~~~(r t).b &&& (r t).d)
          else if t ≤ 39 then (r t).b ^^^ (r t).c ^^^ (r t).d
          else if t ≤ 59 then ((r t).b &&& (r t).c) ||| ((r t).b &&& (r t).d) ||| ((r t).c &&& (r t).d)
          else (r t).b ^^^ (r t).c ^^^ (r t).d) +
        (r t).e +
        (if t ≤ 19 then 0x5A827999#32 else if t ≤ 39 then 0x6ED9EBA1#32
          else if t ≤ 59 then 0x8F1BBCDC#32 else 0xCA62C1D6#32) +
        w t
      b := (r t).a
      c := (r t).b.rotateLeft 30
      d := (r t).c
      e := (r t).d }) →
    compress h blk =
      ⟨h.h0 + (r 80).a, h.h1 + (r 80).b, h.h2 + (r 80).c, h.h3 + (r 80).d, h.h4 + (r 80).e⟩) ∧
  (∀ (h : Chain) (blk rest : List Byte), compressAll h [] = h ∧
    (blk.length = 64 → rest.length % 64 = 0 →
      compressAll h (blk ++ rest) = compressAll (compress h blk) rest)) ∧
  (∀ (m : List Byte) (c : Chain),
    c = compressAll
      (compressAll ⟨0x67452301#32, 0xEFCDAB89#32, 0x98BADCFE#32, 0x10325476#32, 0xC3D2E1F0#32⟩
        (m.take (64 * (m.length / 64))))
      (pad (m.drop (64 * (m.length / 64))) (BitVec.ofNat 64 m.length)) →
    sha1 m = be32bytes c.h0 ++ be32bytes c.h1 ++ be32bytes c.h2 ++ be32bytes c.h3 ++ be32bytes c.h4)

/-- `AddLen` on the two halves is addition modulo 2^64 (R203). -/
def Obligations.AddLenIsAddition : Prop :=
  ∀ (hi lo : Word) (n : Nat), dword (addLen hi lo n).1 (addLen hi lo n).2 = dword hi lo + BitVec.ofNat 64 n

/-- The padding: the pending bytes, 0x80, zeros, and eight bytes that are the bit length modulo 2^64, most significant
first, in one block when at most 55 bytes are pending and two otherwise (R180). And the byte order everything is built on
(R10, R86): a word is its four bytes most significant first, absent bytes counting as 0 (R257); the bytes of a word and
of a 64-bit value are that reading's inverse; word j of a digest is its bytes 4j to 4j+3 (R49). -/
def Obligations.PaddingAndByteOrder : Prop :=
  (∀ (buf : List Byte) (total : Dword), buf.length < 64 →
    (buf.length ≤ 55 → (pad buf total).length = 64) ∧ (56 ≤ buf.length → (pad buf total).length = 128) ∧
    (pad buf total).take (buf.length + 1) = buf ++ [0x80#8] ∧
    (∀ i, buf.length < i → i + 8 < (pad buf total).length → (pad buf total)[i]? = some 0#8) ∧
    ((pad buf total).drop ((pad buf total).length - 8)).foldl (fun n b => 256 * n + b.toNat) 0 =
      8 * total.toNat % 2 ^ 64) ∧
  (∀ s : List Byte, (be32 s).toNat =
    (s.getD 0 0#8).toNat * 2 ^ 24 + (s.getD 1 0#8).toNat * 2 ^ 16 + (s.getD 2 0#8).toNat * 2 ^ 8 +
      (s.getD 3 0#8).toNat) ∧
  (∀ w : Word, (be32bytes w).length = 4 ∧ be32 (be32bytes w) = w) ∧
  (∀ a b c d : Byte, be32bytes (be32 [a, b, c, d]) = [a, b, c, d]) ∧
  (∀ v : Dword, (be64bytes v).length = 8 ∧ (be64bytes v).foldl (fun n b => 256 * n + b.toNat) 0 = v.toNat) ∧
  (∀ d : List Byte, d.length = 20 → Chain.ofBytes d =
    ⟨be32 (d.take 4), be32 ((d.drop 4).take 4), be32 ((d.drop 8).take 4), be32 ((d.drop 12).take 4),
      be32 ((d.drop 16).take 4)⟩)

/-- A key longer than 64 bytes gives the HMAC of its SHA-1 (R231, an inference the spec marks as its own). -/
def Obligations.HmacLongKeyReduction : Prop :=
  ∀ key msg : List Byte, 64 < key.length → hmac key msg = hmac (sha1 key) msg

/-- Dynamic truncation of a 20-byte HMAC: the window lies inside the digest and `S` is its 31-bit big-endian value
(R251). -/
def Obligations.TruncationWindow : Prop :=
  ∀ hs : List Byte, hs.length = 20 →
    truncOffset hs = (hs.getD 19 0#8).toNat % 16 ∧ truncOffset hs + 3 ≤ 18 ∧
    (truncValue hs).toNat =
      (hs.getD (truncOffset hs) 0#8).toNat % 128 * 2 ^ 24 + (hs.getD (truncOffset hs + 1) 0#8).toNat * 2 ^ 16 +
      (hs.getD (truncOffset hs + 2) 0#8).toNat * 2 ^ 8 + (hs.getD (truncOffset hs + 3) 0#8).toNat ∧
    (truncValue hs).toNat < 2 ^ 31

/-- `Render` writes the decimal digits: exactly d characters, each "0" to "9", reading back as the number (R252). -/
def Obligations.RenderIsDecimal : Prop :=
  ∀ v d : Nat, v < 10 ^ d →
    (render v d).length = d ∧ (∀ b ∈ render v d, 0x30 ≤ b.toNat ∧ b.toNat ≤ 0x39) ∧
    (render v d).foldl (fun n b => 10 * n + (b.toNat - 0x30)) 0 = v

/-- The TOTP counter is the floor of the exact difference over the effective step, and fits 64 bits (R262, R263). -/
def Obligations.TotpCounterIsFloor : Prop :=
  ∀ a : ArgRegs, a.startOffset ≤ a.now →
    (a.totpCounter : Int) * a.effectiveStep ≤ a.now - a.startOffset ∧
    a.now - a.startOffset < ((a.totpCounter : Int) + 1) * a.effectiveStep ∧
    a.totpCounter < 2 ^ 64 ∧
    (a.step = 0#32 → a.effectiveStep = 30) ∧ (a.step ≠ 0#32 → a.effectiveStep = a.step.toNat)

/-- TOTP is constant on each step interval: two times in `[start_offset + k*step, start_offset + (k+1)*step)` give the
counter k and, for a command the host did not race with (log 1), the same next state (R265, whose equality follows from
R263). -/
def Obligations.TotpStability : Prop :=
  ∀ (s : State) (w : Word) (a b : ArgRegs) (d : BitVec 8) (k : Nat), s.raced = false →
    b = { a with timeLo := b.timeLo, timeHi := b.timeHi } →
    a.startOffset + k * a.effectiveStep ≤ a.now → a.now < a.startOffset + (k + 1) * a.effectiveStep →
    b.startOffset + k * b.effectiveStep ≤ b.now → b.now < b.startOffset + (k + 1) * b.effectiveStep →
    a.totpCounter = k ∧ b.totpCounter = k ∧
    ∃ t, exec (.totpGen d) { s with lcmd := some ⟨w, a⟩ } = .next t ∧
      exec (.totpGen d) { s with lcmd := some ⟨w, b⟩ } = .next t

/-- The checksum bit and the truncation offset change no result (R255); said of a command the host did not race with,
since R93 item 3 leaves a raced result unconstrained (log 1). -/
def Obligations.IgnoredParameters : Prop :=
  ∀ (s : State) (l : Lcmd) (d : BitVec 8) (off : Word), s.lcmd = some l → s.raced = false →
    ∃ t u, exec (.hotpGen d false) s = .next t ∧ exec (.hotpGen d true) s = .next t ∧
      (∀ k, exec (.hotpGen d k) { s with lcmd := some { l with args := { l.args with truncOff := off } } } = .next t) ∧
      exec (.totpGen d) s = .next u ∧
      exec (.totpGen d) { s with lcmd := some { l with args := { l.args with truncOff := off } } } = .next u

/-! ### Streaming, and the invariants of the machine -/

/-- How a message is split across updates does not change its digest: absorbing the pieces into a fresh context and
finishing gives the SHA-1 of their concatenation (R204). The functions are those the commands' meanings apply. -/
def Obligations.StreamingEquivalence : Prop :=
  ∀ pieces : List (List Byte),
    (pieces.foldl HashContext.absorb HashContext.fresh).finish = sha1Chain pieces.flatten

/-- The streaming commands, as the machine runs them, on a context that has compressed `X` and holds `p` pending: INIT
empties it, UPDATE appends the message, BLOCK puts its blocks ahead of the pending bytes, FINISH emits the SHA-1 of
`X ++ p` (R200, R202, R206, R208, R209). -/
def Obligations.StreamingCommandsRefineSha1 : Prop :=
  ∀ (s : State) (l : Lcmd) (c : BitVec 4), s.lcmd = some l → s.raced = false → c.toNat < s.ctx.length →
    (∃ t x, exec (.sha1Init c) s = .next t ∧ t.ctx[c.toNat]? = some x ∧ x.Holds [] []) ∧
    (∀ (x : HashContext) (X p m : List Byte), s.ctx[c.toNat]? = some x → x.Holds X p →
      memRead s l.args.msgAddr l.args.msgLen = .ok m →
      (∃ t y, exec (.sha1Update c) s = .next t ∧ t.ctx[c.toNat]? = some y ∧
        ∃ X' p', X' ++ p' = X ++ p ++ m ∧ y.Holds X' p') ∧
      (l.args.msgLen.toNat % 64 = 0 →
        ∃ t y, exec (.sha1Block c) s = .next t ∧ t.ctx[c.toNat]? = some y ∧ y.Holds (X ++ m) p)) ∧
    (∀ (x : HashContext) (X p : List Byte), s.ctx[c.toNat]? = some x → x.Holds X p →
      ∃ t, exec (.sha1Finish c) s = .next t ∧ t.digest.bytes = sha1 (X ++ p))

/-- The state after reset is well formed, and each of its contexts has a whole-block length. -/
def Obligations.ResetStateWellFormed : Prop :=
  State.reset.Wf ∧ ∀ x ∈ State.reset.ctx, x.LenWhole

/-- Every step keeps the state well formed: the parameters in bounds, the context invariants R32 (a) and (c), DMEM
canonical and inside MEM_SIZE, DONE and ERR never both 1 (R38), neither set while BUSY = 1. -/
def Obligations.StepKeepsWellFormed : Prop :=
  ∀ s t : State, s.Wf → step s = .next t → t.Wf

/-- `LEN mod 64 = 0` in every context is kept by every step but the completion of a raced command, whose `LEN` R93 item 3
leaves unconstrained (R32 (b), log 1): by every step from an unraced state, and from a raced one by every step that leaves
the command executing, finds none executing, or is the reset input. -/
def Obligations.LengthStaysWholeBlocks : Prop :=
  ∀ s t : State, step s = .next t →
    (s.raced = false ∨ s.busy = false ∨ t.busy = true ∨ ∃ rest, s.script = .reset :: rest) →
    (∀ x ∈ s.ctx, x.LenWhole) → ∀ x ∈ t.ctx, x.LenWhole
end

