-- ==== Sys2Proof/Laws/Decode.lean ====
section
/-! SUPPORT. The fields an encoded operation carries, and the rows of the opcode map. -/

namespace Sys2Proof

/-- The offset of an encoded transaction. -/
@[simp] theorem busOffset_encodeBus (rw : Bool) (offset : BitVec 8) (data : Word) :
    busOffset (encodeBus rw offset data) = offset := by
  ext i hi
  simp only [busOffset, encodeBus, BitVec.getElem_extractLsb', BitVec.getLsbD_or, BitVec.getLsbD_shiftLeft,
    BitVec.getLsbD_setWidth, BitVec.getLsbD_ofBool]
  simp [BitVec.getLsbD_eq_getElem hi, show 32 + i < 40 by omega, show 32 + i < 41 by omega, show i < 41 by omega]

/-- The data of an encoded transaction. -/
@[simp] theorem busData_encodeBus (rw : Bool) (offset : BitVec 8) (data : Word) :
    busData (encodeBus rw offset data) = data := by
  ext i hi
  simp only [busData, encodeBus, BitVec.getElem_extractLsb', BitVec.getLsbD_or, BitVec.getLsbD_shiftLeft,
    BitVec.getLsbD_setWidth, BitVec.getLsbD_ofBool]
  simp [hi, show i < 40 by omega, show i < 41 by omega]

/-- The direction bit of an encoded transaction. -/
@[simp] theorem rw_encodeBus (rw : Bool) (offset : BitVec 8) (data : Word) :
    (encodeBus rw offset data).getLsbD 40 = rw := by
  simp [encodeBus]

/-- When a row selects a word (R114). -/
theorem selects_iff (r : CmdRow) (w : Word) : r.selects w = true ↔ w &&& r.mask = r.pattern := by
  simp [CmdRow.selects]

end Sys2Proof
end

