-- ==== Sys2Proof/Laws/Memory.lean ====
section
/-! SUPPORT. The laws of DMEM: read after write, every operation keeps the canonical form, and where its entries lie. -/

namespace Sys2Proof.Machine

@[simp] theorem Memory.get_nil (a : Nat) : Memory.get [] a = Memory.unlisted := rfl

theorem Memory.get_cons (b : Nat) (v : Byte) (rest : Memory) (a : Nat) :
    Memory.get ((b, v) :: rest) a = if a = b then v else Memory.get rest a := rfl

/-- An address below every listed one reads as an unlisted byte. -/
theorem Memory.get_below (m : Memory) (a : Nat) (h : ∀ c ∈ m, a < c.1) : m.get a = Memory.unlisted := by
  induction m with
  | nil => rfl
  | cons c rest ih =>
    obtain ⟨b, v⟩ := c
    have hb : a < b := h (b, v) (by simp)
    rw [Memory.get_cons, if_neg (by omega)]
    exact ih (fun c hc => h c (by simp [hc]))

/-- What the canonical form says of a nonempty memory. -/
theorem Memory.wf_cons (b : Nat) (w : Byte) (rest : Memory) :
    Memory.wf ((b, w) :: rest) = true ↔
      w ≠ Memory.unlisted ∧ (∀ c ∈ rest, b < c.1) ∧ Memory.wf rest = true := by
  simp [Memory.wf, and_assoc]

/-- Where the entries of a written memory lie: at the address written, or where they lay. -/
theorem Memory.mem_set (m : Memory) (a : Nat) (v : Byte) (c : Host.Cell) (h : c ∈ m.set a v) : c = (a, v) ∨ c ∈ m := by
  induction m with
  | nil =>
    simp only [Memory.set] at h
    split at h <;> simp_all
  | cons d rest ih =>
    obtain ⟨b, w⟩ := d
    simp only [Memory.set] at h
    split at h
    · split at h <;> simp_all
    · split at h
      · rename_i hab
        subst hab
        split at h
        · exact .inr (List.mem_cons_of_mem _ h)
        · exact (List.mem_cons.mp h).imp_right (List.mem_cons_of_mem _)
      · simp only [List.mem_cons] at h ⊢
        rcases h with h | h
        · exact .inr (.inl h)
        · exact (ih h).imp_right .inr

/-- A byte written reads back, every other byte reads as before. -/
theorem Memory.get_set (m : Memory) (hm : m.wf = true) (a : Nat) (v : Byte) (x : Nat) :
    (m.set a v).get x = if x = a then v else m.get x := by
  induction m with
  | nil =>
    simp only [Memory.set]
    split
    · simp_all [Memory.get_nil]
    · simp [Memory.get_cons]
  | cons d rest ih =>
    obtain ⟨b, w⟩ := d
    obtain ⟨_, hlt, hwf⟩ := (Memory.wf_cons b w rest).mp hm
    simp only [Memory.set]
    split
    · rename_i hab
      split
      · rename_i hv
        by_cases hx : x = a
        · rw [if_pos hx, hv, hx]
          refine Memory.get_below _ _ (fun c hc => ?_)
          rcases List.mem_cons.mp hc with rfl | hc
          · exact hab
          · exact lt_trans hab (hlt c hc)
        · rw [if_neg hx]
      · simp [Memory.get_cons]
    · split
      · rename_i hab
        subst hab
        split
        · rename_i hv
          by_cases hx : x = a
          · rw [if_pos hx, hv, hx]
            exact Memory.get_below _ _ hlt
          · simp [Memory.get_cons, hx]
        · by_cases hx : x = a <;> simp [Memory.get_cons, hx]
      · rename_i h1 h2
        simp only [Memory.get_cons, ih hwf]
        by_cases hx : x = b
        · simp [hx, show b ≠ a from fun h => h2 h.symm]
        · simp [hx]

/-- A write of one byte keeps the canonical form. -/
theorem Memory.set_wf (m : Memory) (hm : m.wf = true) (a : Nat) (v : Byte) : (m.set a v).wf = true := by
  induction m with
  | nil =>
    simp only [Memory.set]
    split
    · rfl
    · simp_all [Memory.wf]
  | cons d rest ih =>
    obtain ⟨b, w⟩ := d
    obtain ⟨hw, hlt, hwf⟩ := (Memory.wf_cons b w rest).mp hm
    simp only [Memory.set]
    split
    · rename_i hab
      split
      · exact hm
      · rename_i hv
        refine (Memory.wf_cons a v _).mpr ⟨hv, fun c hc => ?_, hm⟩
        rcases List.mem_cons.mp hc with rfl | hc
        · exact hab
        · exact lt_trans hab (hlt c hc)
    · split
      · rename_i hab
        subst hab
        split
        · exact hwf
        · exact (Memory.wf_cons a v rest).mpr ⟨‹_›, hlt, hwf⟩
      · refine (Memory.wf_cons b w _).mpr ⟨hw, fun c hc => ?_, ih hwf⟩
        rcases Memory.mem_set rest a v c hc with rfl | hc
        · simp only; omega
        · exact hlt c hc

/-- Writing a string keeps the canonical form. -/
theorem Memory.write_wf (m : Memory) (hm : m.wf = true) (a : Nat) (bytes : List Byte) : (m.write a bytes).wf = true := by
  induction bytes generalizing m a with
  | nil => exact hm
  | cons v rest ih => exact ih _ (Memory.set_wf m hm a v) _

/-- Where the entries lie after a string was written. -/
theorem Memory.mem_write (m : Memory) (a : Nat) (bytes : List Byte) (c : Host.Cell) (h : c ∈ m.write a bytes) :
    (a ≤ c.1 ∧ c.1 < a + bytes.length) ∨ c ∈ m := by
  induction bytes generalizing m a with
  | nil => exact .inr h
  | cons v rest ih =>
    rcases ih (m.set a v) (a + 1) h with h | h
    · simp only [List.length_cons]; omega
    · rcases Memory.mem_set m a v c h with rfl | h
      · simp
      · exact .inr h

/-- A byte of a string read is the byte at its address. -/
theorem Memory.read_getElem? (m : Memory) (a n i : Nat) : (m.read a n)[i]? = if i < n then some (m.get (a + i)) else none := by
  induction n generalizing a i with
  | zero => simp [Memory.read]
  | succ n ih =>
    cases i with
    | zero => simp [Memory.read]
    | succ i => simp [Memory.read, ih, Nat.add_comm 1 i, Nat.add_assoc]

@[simp] theorem Memory.read_length (m : Memory) (a n : Nat) : (m.read a n).length = n := by
  induction n generalizing a with
  | zero => rfl
  | succ n ih => simp [Memory.read, ih]

end Sys2Proof.Machine
end

