-- ==== Sys2Proof/Laws/State.lean ====
section
/-! SUPPORT. One lemma per field of State per named update, true by rfl, so that no proof unfolds a record update. -/

namespace Sys2Proof.Machine

/-! ### `accept` -/

@[simp] theorem State.accept_ctx (w : Word) (s : State) : (s.accept w).ctx = s.ctx := rfl
@[simp] theorem State.accept_lcmd (w : Word) (s : State) : (s.accept w).lcmd = some { word := w, args := s.args } := rfl
@[simp] theorem State.accept_cmd (w : Word) (s : State) : (s.accept w).cmd = w := rfl
@[simp] theorem State.accept_done (w : Word) (s : State) : (s.accept w).done = false := rfl
@[simp] theorem State.accept_err (w : Word) (s : State) : (s.accept w).err = false := rfl
@[simp] theorem State.accept_ovr (w : Word) (s : State) : (s.accept w).ovr = s.ovr := rfl
@[simp] theorem State.accept_errcode (w : Word) (s : State) : (s.accept w).errcode = s.errcode := rfl
@[simp] theorem State.accept_ie (w : Word) (s : State) : (s.accept w).ie = s.ie := rfl
@[simp] theorem State.accept_args (w : Word) (s : State) : (s.accept w).args = s.args := rfl
@[simp] theorem State.accept_ctxSel (w : Word) (s : State) : (s.accept w).ctxSel = s.ctxSel := rfl
@[simp] theorem State.accept_digest (w : Word) (s : State) : (s.accept w).digest = s.digest := rfl
@[simp] theorem State.accept_otp (w : Word) (s : State) : (s.accept w).otp = s.otp := rfl
@[simp] theorem State.accept_totpCntLo (w : Word) (s : State) : (s.accept w).totpCntLo = s.totpCntLo := rfl
@[simp] theorem State.accept_totpCntHi (w : Word) (s : State) : (s.accept w).totpCntHi = s.totpCntHi := rfl
@[simp] theorem State.accept_dmem (w : Word) (s : State) : (s.accept w).dmem = s.dmem := rfl
@[simp] theorem State.accept_cfg (w : Word) (s : State) : (s.accept w).cfg = s.cfg := rfl
@[simp] theorem State.accept_raced (w : Word) (s : State) : (s.accept w).raced = false := rfl
@[simp] theorem State.accept_draws (w : Word) (s : State) : (s.accept w).draws = s.draws := rfl
@[simp] theorem State.accept_script (w : Word) (s : State) : (s.accept w).script = s.script := rfl
@[simp] theorem State.accept_observed (w : Word) (s : State) : (s.accept w).observed = s.observed := rfl

/-! ### `raiseError` -/

@[simp] theorem State.raiseError_ctx (c : ErrCode) (s : State) : (s.raiseError c).ctx = s.ctx := rfl
@[simp] theorem State.raiseError_lcmd (c : ErrCode) (s : State) : (s.raiseError c).lcmd = none := rfl
@[simp] theorem State.raiseError_cmd (c : ErrCode) (s : State) : (s.raiseError c).cmd = s.cmd := rfl
@[simp] theorem State.raiseError_done (c : ErrCode) (s : State) : (s.raiseError c).done = s.done := rfl
@[simp] theorem State.raiseError_err (c : ErrCode) (s : State) : (s.raiseError c).err = true := rfl
@[simp] theorem State.raiseError_ovr (c : ErrCode) (s : State) : (s.raiseError c).ovr = s.ovr := rfl
@[simp] theorem State.raiseError_errcode (c : ErrCode) (s : State) : (s.raiseError c).errcode = c := rfl
@[simp] theorem State.raiseError_ie (c : ErrCode) (s : State) : (s.raiseError c).ie = s.ie := rfl
@[simp] theorem State.raiseError_args (c : ErrCode) (s : State) : (s.raiseError c).args = s.args := rfl
@[simp] theorem State.raiseError_ctxSel (c : ErrCode) (s : State) : (s.raiseError c).ctxSel = s.ctxSel := rfl
@[simp] theorem State.raiseError_digest (c : ErrCode) (s : State) : (s.raiseError c).digest = s.digest := rfl
@[simp] theorem State.raiseError_otp (c : ErrCode) (s : State) : (s.raiseError c).otp = s.otp := rfl
@[simp] theorem State.raiseError_totpCntLo (c : ErrCode) (s : State) : (s.raiseError c).totpCntLo = s.totpCntLo := rfl
@[simp] theorem State.raiseError_totpCntHi (c : ErrCode) (s : State) : (s.raiseError c).totpCntHi = s.totpCntHi := rfl
@[simp] theorem State.raiseError_dmem (c : ErrCode) (s : State) : (s.raiseError c).dmem = s.dmem := rfl
@[simp] theorem State.raiseError_cfg (c : ErrCode) (s : State) : (s.raiseError c).cfg = s.cfg := rfl
@[simp] theorem State.raiseError_raced (c : ErrCode) (s : State) : (s.raiseError c).raced = false := rfl
@[simp] theorem State.raiseError_draws (c : ErrCode) (s : State) : (s.raiseError c).draws = s.draws := rfl
@[simp] theorem State.raiseError_script (c : ErrCode) (s : State) : (s.raiseError c).script = s.script := rfl
@[simp] theorem State.raiseError_observed (c : ErrCode) (s : State) : (s.raiseError c).observed = s.observed := rfl

/-! ### `clearStatus` -/

@[simp] theorem State.clearStatus_ctx (d : Word) (s : State) : (s.clearStatus d).ctx = s.ctx := rfl
@[simp] theorem State.clearStatus_lcmd (d : Word) (s : State) : (s.clearStatus d).lcmd = s.lcmd := rfl
@[simp] theorem State.clearStatus_cmd (d : Word) (s : State) : (s.clearStatus d).cmd = s.cmd := rfl
@[simp] theorem State.clearStatus_done (d : Word) (s : State) : (s.clearStatus d).done = (s.done && !d.getLsbD 1) := rfl
@[simp] theorem State.clearStatus_err (d : Word) (s : State) : (s.clearStatus d).err = (s.err && !d.getLsbD 2) := rfl
@[simp] theorem State.clearStatus_ovr (d : Word) (s : State) : (s.clearStatus d).ovr = (s.ovr && !d.getLsbD 3) := rfl
@[simp] theorem State.clearStatus_errcode (d : Word) (s : State) : (s.clearStatus d).errcode = s.errcode := rfl
@[simp] theorem State.clearStatus_ie (d : Word) (s : State) : (s.clearStatus d).ie = s.ie := rfl
@[simp] theorem State.clearStatus_args (d : Word) (s : State) : (s.clearStatus d).args = s.args := rfl
@[simp] theorem State.clearStatus_ctxSel (d : Word) (s : State) : (s.clearStatus d).ctxSel = s.ctxSel := rfl
@[simp] theorem State.clearStatus_digest (d : Word) (s : State) : (s.clearStatus d).digest = s.digest := rfl
@[simp] theorem State.clearStatus_otp (d : Word) (s : State) : (s.clearStatus d).otp = s.otp := rfl
@[simp] theorem State.clearStatus_totpCntLo (d : Word) (s : State) : (s.clearStatus d).totpCntLo = s.totpCntLo := rfl
@[simp] theorem State.clearStatus_totpCntHi (d : Word) (s : State) : (s.clearStatus d).totpCntHi = s.totpCntHi := rfl
@[simp] theorem State.clearStatus_dmem (d : Word) (s : State) : (s.clearStatus d).dmem = s.dmem := rfl
@[simp] theorem State.clearStatus_cfg (d : Word) (s : State) : (s.clearStatus d).cfg = s.cfg := rfl
@[simp] theorem State.clearStatus_raced (d : Word) (s : State) : (s.clearStatus d).raced = s.raced := rfl
@[simp] theorem State.clearStatus_draws (d : Word) (s : State) : (s.clearStatus d).draws = s.draws := rfl
@[simp] theorem State.clearStatus_script (d : Word) (s : State) : (s.clearStatus d).script = s.script := rfl
@[simp] theorem State.clearStatus_observed (d : Word) (s : State) : (s.clearStatus d).observed = s.observed := rfl

/-! ### `apply` -/

@[simp] theorem State.apply_ctx (e : Effect) (s : State) : (s.apply e).ctx = (match e.ctx with | some (c, x) => s.ctx.set c.toNat x | none => s.ctx) := rfl
@[simp] theorem State.apply_lcmd (e : Effect) (s : State) : (s.apply e).lcmd = s.lcmd := rfl
@[simp] theorem State.apply_cmd (e : Effect) (s : State) : (s.apply e).cmd = s.cmd := rfl
@[simp] theorem State.apply_done (e : Effect) (s : State) : (s.apply e).done = s.done := rfl
@[simp] theorem State.apply_err (e : Effect) (s : State) : (s.apply e).err = s.err := rfl
@[simp] theorem State.apply_ovr (e : Effect) (s : State) : (s.apply e).ovr = s.ovr := rfl
@[simp] theorem State.apply_errcode (e : Effect) (s : State) : (s.apply e).errcode = s.errcode := rfl
@[simp] theorem State.apply_ie (e : Effect) (s : State) : (s.apply e).ie = s.ie := rfl
@[simp] theorem State.apply_args (e : Effect) (s : State) : (s.apply e).args = s.args := rfl
@[simp] theorem State.apply_ctxSel (e : Effect) (s : State) : (s.apply e).ctxSel = s.ctxSel := rfl
@[simp] theorem State.apply_digest (e : Effect) (s : State) : (s.apply e).digest = e.digest.getD s.digest := rfl
@[simp] theorem State.apply_otp (e : Effect) (s : State) : (s.apply e).otp = e.otp.getD s.otp := rfl
@[simp] theorem State.apply_totpCntLo (e : Effect) (s : State) : (s.apply e).totpCntLo = (match e.totpCnt with | some v => loWord v | none => s.totpCntLo) := rfl
@[simp] theorem State.apply_totpCntHi (e : Effect) (s : State) : (s.apply e).totpCntHi = (match e.totpCnt with | some v => hiWord v | none => s.totpCntHi) := rfl
@[simp] theorem State.apply_dmem (e : Effect) (s : State) : (s.apply e).dmem = s.dmem := rfl
@[simp] theorem State.apply_cfg (e : Effect) (s : State) : (s.apply e).cfg = s.cfg := rfl
@[simp] theorem State.apply_raced (e : Effect) (s : State) : (s.apply e).raced = s.raced := rfl
@[simp] theorem State.apply_draws (e : Effect) (s : State) : (s.apply e).draws = s.draws := rfl
@[simp] theorem State.apply_script (e : Effect) (s : State) : (s.apply e).script = s.script := rfl
@[simp] theorem State.apply_observed (e : Effect) (s : State) : (s.apply e).observed = s.observed := rfl

/-! ### `commitOk` -/

@[simp] theorem State.commitOk_ctx (e : Effect) (s : State) : (s.commitOk e).ctx = (s.apply (if s.raced then e.freed s.draws else e)).ctx := rfl
@[simp] theorem State.commitOk_lcmd (e : Effect) (s : State) : (s.commitOk e).lcmd = none := rfl
@[simp] theorem State.commitOk_cmd (e : Effect) (s : State) : (s.commitOk e).cmd = s.cmd := rfl
@[simp] theorem State.commitOk_done (e : Effect) (s : State) : (s.commitOk e).done = true := rfl
@[simp] theorem State.commitOk_err (e : Effect) (s : State) : (s.commitOk e).err = s.err := rfl
@[simp] theorem State.commitOk_ovr (e : Effect) (s : State) : (s.commitOk e).ovr = s.ovr := rfl
@[simp] theorem State.commitOk_errcode (e : Effect) (s : State) : (s.commitOk e).errcode = .none := rfl
@[simp] theorem State.commitOk_ie (e : Effect) (s : State) : (s.commitOk e).ie = s.ie := rfl
@[simp] theorem State.commitOk_args (e : Effect) (s : State) : (s.commitOk e).args = s.args := rfl
@[simp] theorem State.commitOk_ctxSel (e : Effect) (s : State) : (s.commitOk e).ctxSel = s.ctxSel := rfl
@[simp] theorem State.commitOk_digest (e : Effect) (s : State) : (s.commitOk e).digest = (s.apply (if s.raced then e.freed s.draws else e)).digest := rfl
@[simp] theorem State.commitOk_otp (e : Effect) (s : State) : (s.commitOk e).otp = (s.apply (if s.raced then e.freed s.draws else e)).otp := rfl
@[simp] theorem State.commitOk_totpCntLo (e : Effect) (s : State) : (s.commitOk e).totpCntLo = (s.apply (if s.raced then e.freed s.draws else e)).totpCntLo := rfl
@[simp] theorem State.commitOk_totpCntHi (e : Effect) (s : State) : (s.commitOk e).totpCntHi = (s.apply (if s.raced then e.freed s.draws else e)).totpCntHi := rfl
@[simp] theorem State.commitOk_dmem (e : Effect) (s : State) : (s.commitOk e).dmem = s.dmem := rfl
@[simp] theorem State.commitOk_cfg (e : Effect) (s : State) : (s.commitOk e).cfg = s.cfg := rfl
@[simp] theorem State.commitOk_raced (e : Effect) (s : State) : (s.commitOk e).raced = false := rfl
@[simp] theorem State.commitOk_draws (e : Effect) (s : State) : (s.commitOk e).draws = (if s.raced then s.draws + 1 else s.draws) := rfl
@[simp] theorem State.commitOk_script (e : Effect) (s : State) : (s.commitOk e).script = s.script := rfl
@[simp] theorem State.commitOk_observed (e : Effect) (s : State) : (s.commitOk e).observed = s.observed := rfl

/-! ### `resetInput` -/

@[simp] theorem State.resetInput_ctx (s : State) : (s.resetInput).ctx = List.replicate s.ctx.length HashContext.reset := rfl
@[simp] theorem State.resetInput_lcmd (s : State) : (s.resetInput).lcmd = none := rfl
@[simp] theorem State.resetInput_cmd (s : State) : (s.resetInput).cmd = 0#32 := rfl
@[simp] theorem State.resetInput_done (s : State) : (s.resetInput).done = false := rfl
@[simp] theorem State.resetInput_err (s : State) : (s.resetInput).err = false := rfl
@[simp] theorem State.resetInput_ovr (s : State) : (s.resetInput).ovr = false := rfl
@[simp] theorem State.resetInput_errcode (s : State) : (s.resetInput).errcode = .none := rfl
@[simp] theorem State.resetInput_ie (s : State) : (s.resetInput).ie = false := rfl
@[simp] theorem State.resetInput_args (s : State) : (s.resetInput).args = ArgRegs.reset := rfl
@[simp] theorem State.resetInput_ctxSel (s : State) : (s.resetInput).ctxSel = 0#4 := rfl
@[simp] theorem State.resetInput_digest (s : State) : (s.resetInput).digest = Chain.zero := rfl
@[simp] theorem State.resetInput_otp (s : State) : (s.resetInput).otp = OtpRegs.reset := rfl
@[simp] theorem State.resetInput_totpCntLo (s : State) : (s.resetInput).totpCntLo = 0#32 := rfl
@[simp] theorem State.resetInput_totpCntHi (s : State) : (s.resetInput).totpCntHi = 0#32 := rfl
@[simp] theorem State.resetInput_dmem (s : State) : (s.resetInput).dmem = s.dmem := rfl
@[simp] theorem State.resetInput_cfg (s : State) : (s.resetInput).cfg = s.cfg := rfl
@[simp] theorem State.resetInput_raced (s : State) : (s.resetInput).raced = false := rfl
@[simp] theorem State.resetInput_draws (s : State) : (s.resetInput).draws = s.draws := rfl
@[simp] theorem State.resetInput_script (s : State) : (s.resetInput).script = s.script := rfl
@[simp] theorem State.resetInput_observed (s : State) : (s.resetInput).observed = s.observed := rfl

/-! ### The bus and the placing of an operation -/

/-- Pushing the next entry of the script changes the script alone. -/
@[simp] theorem placeEncoding_bus (b : BitVec 41) (s : State) :
    placeEncoding (.bus b) s = { s with script := .bus .word b :: s.script } := rfl

/-- Placing a command word accepts it and gives the engine the next turn. -/
@[simp] theorem placeEncoding_cmd (w : Word) (s : State) :
    placeEncoding (.cmd w) s = { s.accept w with script := .engine :: s.script } := rfl

end Sys2Proof.Machine
end

