-- ==== Sys2Proof/Laws/Ops.lean ====
section
/-! SUPPORT. What each shared operation can do, said once: the read primitive, the context checks, the life of a command,
the host's DMEM write, the parts of a step. -/

namespace Sys2Proof.Machine

/-! ### The read primitive and the context checks -/

/-- A read has no cause of failure but the one of R84. -/
theorem memRead_error {s : State} {a n : Word} {c : ErrCode} (h : memRead s a n = .error c) : c = .hashFailure := by
  unfold memRead at h
  split at h
  · cases h
  · split at h
    · cases h; rfl
    · split at h <;> cases h
      rfl

/-- A successful read returns as many bytes as were asked for. -/
theorem memRead_length {s : State} {a n : Word} {m : List Byte} (h : memRead s a n = .ok m) : m.length = n.toNat := by
  unfold memRead at h
  split at h
  · rename_i hn; cases h; simp [hn]
  · split at h
    · cases h
    · split at h <;> cases h
      simp

/-- A read depends on DMEM and the parameters alone. -/
theorem memRead_congr {s t : State} (hd : t.dmem = s.dmem) (hc : t.cfg = s.cfg) (a n : Word) :
    memRead t a n = memRead s a n := by
  simp [memRead, hd, hc]

/-- The check of R146 passes exactly on a context. -/
theorem lookupCtx_ok {s : State} {c : BitVec 4} {x : HashContext} (h : s.ctx[c.toNat]? = some x) :
    lookupCtx s c = .ok x := by
  simp [lookupCtx, h]

/-- The check of R146 fails on an index that is no context. -/
theorem lookupCtx_bad {s : State} {c : BitVec 4} (h : s.ctx.length ≤ c.toNat) : lookupCtx s c = .error .badCtx := by
  simp [lookupCtx, List.getElem?_eq_none h]

/-- The check of R201 passes exactly on an ACTIVE context. -/
theorem lookupActive_ok {s : State} {c : BitVec 4} {x : HashContext} :
    lookupActive s c = .ok x ↔ s.ctx[c.toNat]? = some x ∧ x.state = .active := by
  unfold lookupActive lookupCtx
  cases h : s.ctx[c.toNat]? with
  | none => simp
  | some y =>
    simp only [Option.some.injEq]
    split
    · rename_i hy
      simp only [Except.ok.injEq]
      constructor
      · rintro rfl; exact ⟨rfl, hy⟩
      · exact fun h => h.1
    · rename_i hy
      simp only [reduceCtorEq, false_iff]
      rintro ⟨rfl, h2⟩
      exact hy h2

/-! ### The life of a command -/

/-- A command runs exactly while one is latched (R142, R145). -/
theorem runCommand_latched {f : ArgRegs → State → Except ErrCode Effect} {s : State} {l : Lcmd} (h : s.lcmd = some l) :
    runCommand f s = .next (s.commit (f l.args s)) := by
  simp [runCommand, h]

/-- A command whose `Execute` succeeds, the operands left alone: the state it commits (R147). -/
theorem runCommand_ok {f : ArgRegs → State → Except ErrCode Effect} {s : State} {l : Lcmd} {e : Effect}
    (hl : s.lcmd = some l) (hr : s.raced = false) (hf : f l.args s = .ok e) :
    runCommand f s = .next { s.apply e with errcode := .none, done := true, lcmd := none } := by
  rw [runCommand_latched hl, hf]
  cases s
  cases hr
  rfl

/-- A command whose `Execute` fails: error entry (R147, R284). -/
theorem runCommand_error {f : ArgRegs → State → Except ErrCode Effect} {s : State} {l : Lcmd} {c : ErrCode}
    (hl : s.lcmd = some l) (hf : f l.args s = .error c) : runCommand f s = failedWith c s := by
  rw [runCommand_latched hl, hf]
  rfl

/-- If a command answers a next state, that state is the commit of its `Execute` on the latched arguments. -/
theorem runCommand_next {f : ArgRegs → State → Except ErrCode Effect} {s t : State} (h : runCommand f s = .next t) :
    ∃ l, s.lcmd = some l ∧ t = s.commit (f l.args s) := by
  unfold runCommand at h
  cases hl : s.lcmd with
  | none => simp [hl] at h
  | some l => exact ⟨l, rfl, by simpa [hl] using h.symm⟩

@[simp] theorem State.commit_ok (e : Effect) (s : State) : s.commit (.ok e) = s.commitOk e := rfl
@[simp] theorem State.commit_error (c : ErrCode) (s : State) : s.commit (.error c) = s.raiseError c := rfl

/-- What every commit leaves alone, whatever the command (R147): the host's registers, DMEM, the parameters, the inputs. -/
theorem commit_frame (r : Except ErrCode Effect) (s : State) :
    (s.commit r).cmd = s.cmd ∧ (s.commit r).ovr = s.ovr ∧ (s.commit r).ie = s.ie ∧ (s.commit r).args = s.args ∧
    (s.commit r).ctxSel = s.ctxSel ∧ (s.commit r).dmem = s.dmem ∧ (s.commit r).cfg = s.cfg ∧
    (s.commit r).script = s.script ∧ (s.commit r).observed = s.observed := by
  cases r <;> simp

/-- What every commit makes of the sequencing state (R147). -/
theorem commit_idle (r : Except ErrCode Effect) (s : State) : (s.commit r).lcmd = none ∧ (s.commit r).raced = false := by
  cases r <;> simp

/-- `Execute` of a command (R145), as one function of the operation. -/
def executeOf : Instr → ArgRegs → State → Except ErrCode Effect
  | .regRead _ => fun _ _ => .error .illegalCmd
  | .regWrite _ _ => fun _ _ => .error .illegalCmd
  | .sha1Init c => executeSha1Init c
  | .sha1Update c => executeSha1Update c
  | .sha1Block c => executeSha1Block c
  | .sha1Finish c => executeSha1Finish c
  | .hmacSha1 => executeHmacSha1
  | .hotpGen d k => executeHotpGen d k
  | .totpGen d => executeTotpGen d

/-- The meaning of every command is `Complete` of its `Execute` (R145). -/
theorem exec_command {i : Instr} (h : i.isCommand = true) (s : State) : exec i s = runCommand (executeOf i) s := by
  cases i <;> first | rfl | cases h

/-- `Execute` reads its operands from its argument, the contexts, DMEM and the parameters (R145): live registers, the race
mark and the script do not matter to it. -/
theorem execute_congr {s t : State} (hc : t.ctx = s.ctx) (hd : t.dmem = s.dmem) (hp : t.cfg = s.cfg) (i : Instr)
    (a : ArgRegs) : executeOf i a t = executeOf i a s := by
  cases i <;>
    simp only [executeOf, executeSha1Init, executeSha1Update, executeSha1Block, executeSha1Finish, executeHmacSha1,
      executeHotpGen, executeTotpGen, lookupActive, lookupCtx, memRead, hc, hd, hp]

/-- What a command that succeeds writes is fixed by the command (R49 to R52, R113): the context its word names, and the
result registers of its kind. -/
theorem execute_shape {i : Instr} {a : ArgRegs} {s : State} {e : Effect} (h : executeOf i a s = .ok e) :
    e.ctx.map Prod.fst = i.ctxOf ∧ e.digest.isSome = i.writesDigest ∧ e.otp.isSome = i.writesOtp ∧
    e.totpCnt.isSome = i.writesTotpCnt := by
  cases i <;> simp only [executeOf, reduceCtorEq] at h <;>
    simp only [executeSha1Init, executeSha1Update, executeSha1Block, executeSha1Finish, executeHmacSha1,
      executeHotpGen, executeTotpGen] at h <;>
    (repeat' split at h) <;> cases h <;>
    simp [Instr.ctxOf, Instr.writesDigest, Instr.writesOtp, Instr.writesTotpCnt]

/-- Freeing the values of an effect leaves what it writes to (R93 item 3). -/
theorem Effect.freed_shape (n : Nat) (e : Effect) :
    (e.freed n).ctx.map Prod.fst = e.ctx.map Prod.fst ∧ (e.freed n).digest.isSome = e.digest.isSome ∧
    (e.freed n).otp.isSome = e.otp.isSome ∧ (e.freed n).totpCnt.isSome = e.totpCnt.isSome := by
  simp [Effect.freed, Function.comp_def]

/-- A context check that fails names one of its two causes (R146, R201). -/
theorem lookupActive_error {s : State} {c : BitVec 4} {e : ErrCode} (h : lookupActive s c = .error e) :
    e = .badCtx ∨ e = .ctxState := by
  unfold lookupActive lookupCtx at h
  cases hx : s.ctx[c.toNat]? with
  | none => simp only [hx] at h; cases h; exact .inl rfl
  | some x =>
    simp only [hx] at h
    split at h <;> cases h
    exact .inr rfl

/-- A command that fails names a cause (R280, R282). -/
theorem execute_error {i : Instr} (hi : i.isCommand = true) {a : ArgRegs} {s : State} {c : ErrCode}
    (h : executeOf i a s = .error c) : c ≠ .none := by
  cases i <;> simp only [executeOf, Instr.isCommand, Bool.false_eq_true] at h hi <;>
    simp only [executeSha1Init, executeSha1Update, executeSha1Block, executeSha1Finish, executeHmacSha1,
      executeHotpGen, executeTotpGen, lookupCtx] at h <;>
    (repeat' split at h) <;> cases h <;> first
      | decide
      | (rename_i h; rw [memRead_error h]; decide)
      | (rename_i h; rcases lookupActive_error h with rfl | rfl <;> decide)
      | (rename_i h; split at h <;> cases h; decide)

/-- A read of a register changes what the host has seen and nothing else, or is refused. -/
theorem execRegRead_cases (offset : BitVec 8) (s : State) :
    exec (.regRead offset) s = .next { s with observed := s.observed ++ [s.regValue offset] } ∨
    exec (.regRead offset) s = .refused .busMisaligned := by
  simp only [exec, execRegRead]
  split
  · exact .inl rfl
  · exact .inr rfl

/-- A write of a register writes at its offset, or is refused. -/
theorem execRegWrite_cases (offset : BitVec 8) (data : Word) (s : State) :
    exec (.regWrite offset data) s = .next (s.writeOffset offset data) ∨
    exec (.regWrite offset data) s = .refused .busMisaligned := by
  simp only [exec, execRegWrite]
  split
  · exact .inl rfl
  · exact .inr rfl

/-- The decoder of the command port gives commands only. -/
theorem decodeCmd_isCommand {w : Word} {i : Instr} (h : decodeCmd w = .ok i) : i.isCommand = true := by
  unfold decodeCmd at h
  split at h
  · rename_i r _
    cases h
    obtain ⟨op, _, _⟩ := r
    cases op <;> rfl
  · cases h

/-- The decoder of the host bus gives transactions only. -/
theorem decodeBus_cases {b : BitVec 41} {i : Instr} (h : decodeBus b = .ok i) :
    i = .regRead (busOffset b) ∨ i = .regWrite (busOffset b) (busData b) := by
  unfold decodeBus at h
  split at h
  · split at h <;> cases h
    · exact .inr rfl
    · exact .inl rfl
  · cases h

/-- The host's DMEM write, if it answers a next state: the bytes are written, nothing else but the race mark changes. -/
theorem hostDmemWrite_next {addr : Word} {bytes : List Byte} {s t : State} (h : hostDmemWrite addr bytes s = .next t) :
    (bytes = [] ∨ addr.toNat + bytes.length ≤ s.cfg.memSize) ∧
    ∃ r, t = { s with dmem := s.dmem.write addr.toNat bytes, raced := r } ∧
      (r = true → s.raced = true ∨ s.commandReads = true) := by
  unfold hostDmemWrite at h
  split at h
  · rename_i hb
    refine ⟨hb, _, (by simpa using h.symm), ?_⟩
    simp only [Bool.or_eq_true, State.commandReads]
    refine Or.imp_right (fun hr => ?_)
    cases hl : s.lcmd with
    | none => simp [hl] at hr
    | some l =>
      simp only [hl] at hr ⊢
      cases hls : l.ranges with
      | nil => simp [hls, touches] at hr
      | cons r rs => rfl
  · cases h

/-- The engine's turn, if it answers a next state: nothing, or the commit of the latched command. -/
theorem engineTurn_next {s t : State} (h : engineTurn s = .next t) :
    (s.lcmd = none ∧ t = s) ∨
    ∃ l, s.lcmd = some l ∧
      ((∃ i, decodeCmd l.word = .ok i ∧ t = s.commit (executeOf i l.args s)) ∨
       (decodeCmd l.word = .error .illegalCommand ∧ t = s.raiseError .illegalCmd)) := by
  unfold engineTurn at h
  cases hl : s.lcmd with
  | none => simp only [hl] at h; cases h; exact .inl ⟨rfl, rfl⟩
  | some l =>
    refine .inr ⟨l, rfl, ?_⟩
    simp only [hl] at h
    cases hd : decodeCmd l.word with
    | ok i =>
      simp only [hd] at h
      rw [exec_command (decodeCmd_isCommand hd), runCommand_latched hl] at h
      cases h
      exact .inl ⟨i, rfl, rfl⟩
    | error e =>
      simp only [hd] at h
      cases h
      cases e with
      | illegalCommand => exact .inr ⟨rfl, rfl⟩
      | misalignedOffset =>
        exfalso
        unfold decodeCmd at hd
        split at hd <;> cases hd

/-- A step with an entry left in the script runs that entry. -/
theorem step_entry {s : State} {e : Event} {rest : List Event} (h : s.script = e :: rest) :
    step s = runEvent e { s with script := rest } := by
  simp [step, nextStep, h]

/-- A step with an empty script is the engine's turn. -/
theorem step_engine {s : State} (h : s.script = []) : step s = engineTurn s := by
  simp [step, nextStep, h]

/-- Everything a step that answers a next state can have done, `s₀` being the state with the entry taken from the script:
an engine's turn, a register read, a register write, a DMEM write, a reset. -/
theorem step_next {s t : State} (h : step s = .next t) :
    ∃ rest, (s.script = [] ∧ rest = [] ∨ ∃ e, s.script = e :: rest) ∧
      let s₀ : State := { s with script := rest }
      (engineTurn s₀ = .next t ∧ (s.script = [] ∨ s.script = .engine :: rest)) ∨
      (∃ b, s.script = .bus .word b :: rest ∧ t = { s₀ with observed := s₀.observed ++ [s₀.regValue (busOffset b)] }) ∨
      (∃ b, s.script = .bus .word b :: rest ∧ t = s₀.writeOffset (busOffset b) (busData b)) ∨
      (∃ addr bytes, s.script = .dmemWrite addr bytes :: rest ∧ hostDmemWrite addr bytes s₀ = .next t) ∨
      (s.script = .reset :: rest ∧ t = s₀.resetInput) := by
  unfold step nextStep at h
  cases hs : s.script with
  | nil =>
    refine ⟨[], .inl ⟨rfl, rfl⟩, .inl ⟨?_, .inl rfl⟩⟩
    have he : ({ s with script := [] } : State) = s := by cases s; simp only at hs; subst hs; rfl
    simp only [hs] at h
    rwa [he]
  | cons e rest =>
    refine ⟨rest, .inr ⟨e, rfl⟩, ?_⟩
    simp only [hs] at h
    cases e with
    | bus size b =>
      cases size with
      | word =>
        simp only [runEvent, busTransaction] at h
        cases hd : decodeBus b with
        | error e => simp [hd] at h
        | ok i =>
          simp only [hd] at h
          rcases decodeBus_cases hd with rfl | rfl
          · rcases execRegRead_cases (busOffset b) { s with script := rest } with he | he
            · rw [he] at h; cases h
              exact .inr (.inl ⟨b, rfl, rfl⟩)
            · rw [he] at h; cases h
          · rcases execRegWrite_cases (busOffset b) (busData b) { s with script := rest } with he | he
            · rw [he] at h; cases h
              exact .inr (.inr (.inl ⟨b, rfl, rfl⟩))
            · rw [he] at h; cases h
      | byte => cases h
      | half => cases h
    | dmemWrite addr bytes => exact .inr (.inr (.inr (.inl ⟨addr, bytes, rfl, h⟩)))
    | engine => exact .inl ⟨h, .inr rfl⟩
    | reset => cases h; exact .inr (.inr (.inr (.inr ⟨rfl, rfl⟩)))

end Sys2Proof.Machine
end

