-- ==== Sys2Proof/Laws/PerInstr.lean ====
section
/-! SUPPORT. The family RowMatch of LAWS.json: what the encoder makes of each operation fits the encoding tables of
30_encoding.md. -/

namespace Sys2Proof.Laws.RowMatch

/-- A command's word is selected by exactly one row of R114; a transaction carries an offset that is aligned exactly when
the operation is well formed (R111). -/
def Statement (i : Instr) : Prop :=
  match encode i with
  | .cmd w => (cmdRows.filter (fun r => r.selects w)).length = 1
  | .bus b => alignedOffset (busOffset b) = i.wf

theorem regRead (offset : BitVec 8) : Statement (.regRead offset) := by
  simp [Statement, encode, Instr.wf]

theorem regWrite (offset : BitVec 8) (data : Word) : Statement (.regWrite offset data) := by
  simp [Statement, encode, Instr.wf]

theorem sha1Init (ctx : BitVec 4) : Statement (.sha1Init ctx) := by
  simp only [Statement, encode]; revert ctx; decide

theorem sha1Update (ctx : BitVec 4) : Statement (.sha1Update ctx) := by
  simp only [Statement, encode]; revert ctx; decide

theorem sha1Block (ctx : BitVec 4) : Statement (.sha1Block ctx) := by
  simp only [Statement, encode]; revert ctx; decide

theorem sha1Finish (ctx : BitVec 4) : Statement (.sha1Finish ctx) := by
  simp only [Statement, encode]; revert ctx; decide

theorem hmacSha1 : Statement .hmacSha1 := by
  simp only [Statement, encode]; decide

theorem hotpGen (digits : BitVec 8) (cksum : Bool) : Statement (.hotpGen digits cksum) := by
  simp only [Statement, encode]; revert digits cksum; decide +kernel

theorem totpGen (digits : BitVec 8) : Statement (.totpGen digits) := by
  simp only [Statement, encode]; revert digits; decide +kernel

end Sys2Proof.Laws.RowMatch
end

