-- ==== Sys2Proof/Laws/Sha1.lean ====
section
/-! SUPPORT. Laws of the hash functions: block by block compression, the two parts of a byte string, the lengths of byte
strings. -/

namespace Sys2Proof.Machine

@[simp] theorem be32bytes_length (w : Word) : (be32bytes w).length = 4 := rfl
@[simp] theorem be64bytes_length (v : Dword) : (be64bytes v).length = 8 := rfl
@[simp] theorem zeros_length (n : Nat) : (zeros n).length = n := by simp [zeros]
@[simp] theorem Chain.bytes_length (c : Chain) : c.bytes.length = 20 := rfl

/-- The model's rotation is the bit vector's (R9, R171). -/
theorem rotl32_eq_rotateLeft (x : Word) (n : Nat) (h : n < 32) : rotl32 x n = x.rotateLeft n := by
  rw [BitVec.rotateLeft_def, Nat.mod_eq_of_lt h]
  rfl

/-- One more datapath step is a step of what the steps before it left (R177, R183). -/
theorem Datapath.run_succ (n : Nat) (p : Datapath) : p.run (n + 1) = (p.run n).step := by
  induction n generalizing p with
  | zero => rfl
  | succ n ih => exact ih p.step

/-- The ring keeps its length (R175). -/
@[simp] theorem scheduleRing_length (ring : List Word) (t : Nat) : (scheduleRing ring t).length = ring.length := by
  unfold scheduleRing
  split <;> simp

/-- Compressing the blocks of two strings one after the other is compressing their concatenation. -/
theorem compressBlocks_append (n k : Nat) (h : Chain) (x y : List Byte) (hx : x.length = 64 * n) :
    compressBlocks (n + k) h (x ++ y) = compressBlocks k (compressBlocks n h x) y := by
  induction n generalizing h x with
  | zero =>
    have : x = [] := by simpa using hx
    simp [this, compressBlocks]
  | succ n ih =>
    have h64 : 64 ≤ x.length := by omega
    rw [Nat.succ_add]
    simp only [compressBlocks]
    rw [List.take_append_of_le_length h64, List.drop_append_of_le_length h64]
    exact ih _ _ (by simp; omega)

/-- `CompressAll` over a concatenation, when the first part is whole blocks (R179). -/
theorem compressAll_append (h : Chain) (x y : List Byte) (hx : x.length % 64 = 0) :
    compressAll h (x ++ y) = compressAll (compressAll h x) y := by
  unfold compressAll
  rw [List.length_append, show (x.length + y.length) / 64 = x.length / 64 + y.length / 64 by omega]
  exact compressBlocks_append _ _ _ _ _ (by omega)

@[simp] theorem compressAll_nil (h : Chain) : compressAll h [] = h := rfl

/-- A byte string is its whole blocks and its tail. -/
@[simp] theorem wholeBlocks_append_tailBytes (s : List Byte) : wholeBlocks s ++ tailBytes s = s :=
  List.take_append_drop _ _

theorem wholeBlocks_length (s : List Byte) : (wholeBlocks s).length = 64 * (s.length / 64) := by
  simp [wholeBlocks]; omega

theorem wholeBlocks_length_mod (s : List Byte) : (wholeBlocks s).length % 64 = 0 := by
  rw [wholeBlocks_length]; omega

theorem tailBytes_length (s : List Byte) : (tailBytes s).length = s.length % 64 := by
  simp [tailBytes]; omega

/-- The whole blocks and the tail of a string that begins with whole blocks. -/
theorem wholeBlocks_append (x y : List Byte) (hx : x.length % 64 = 0) : wholeBlocks (x ++ y) = x ++ wholeBlocks y := by
  unfold wholeBlocks
  rw [List.length_append, List.take_append, List.take_of_length_le (by omega)]
  congr 2
  omega

theorem tailBytes_append (x y : List Byte) (hx : x.length % 64 = 0) : tailBytes (x ++ y) = tailBytes y := by
  unfold tailBytes
  rw [List.length_append, List.drop_append, List.drop_of_length_le (by omega), List.nil_append]
  congr 1
  omega

end Sys2Proof.Machine
end

