-- ==== Sys2Proof/Tests/Slice0.lean ====
section
/-! SUPPORT. The tests: the well-formedness smoke, words written out from the encodings of 30_encoding.md, single steps
with the values of 95_test_vectors.md, and for every statement with hypotheses a witness that meets them. -/

namespace Sys2Proof.Tests

open Sys2Proof Sys2Proof.Machine

/-! ### Well-formedness: an ill-formed term for each check -/

/-- An offset whose low bits are 01, 10 or 11 is refused (R111). -/
theorem test_wf_refuses_misaligned_read :
    Instr.wf (.regRead 0x01#8) = false ∧ Instr.wf (.regRead 0x06#8) = false ∧ Instr.wf (.regRead 0xFF#8) = false := by
  decide

theorem test_wf_refuses_misaligned_write :
    Instr.wf (.regWrite 0x02#8 0#32) = false ∧ Instr.wf (.regWrite 0x21#8 0#32) = false := by decide

theorem test_wf_accepts_aligned : Instr.wf (.regRead 0xFC#8) = true ∧ Instr.wf (.regWrite 0x20#8 1#32) = true := by
  decide

/-! ### Decoding: words written out bit by bit from R111, R112 and R114, one per constructor -/

/-- rw = 0, offset = 0000_0100, data ignored. -/
theorem test_decode_regRead :
    decodeBus 0b0_00000100_00000000000000000000000000000000#41 = .ok (.regRead 0x04#8) ∧
    decodeBus 0b0_00000100_11111111111111111111111111111111#41 = .ok (.regRead 0x04#8) := by decide

/-- rw = 1, offset = 0010_0000, data = 0x100 (95_test_vectors.md P1 line 4). -/
theorem test_decode_regWrite :
    decodeBus 0b1_00100000_00000000000000000000000100000000#41 = .ok (.regWrite 0x20#8 0x100#32) := by decide

/-- reserved, DIGITS, reserved, CKSUM, CTX = 0011, OP = 0x01. -/
theorem test_decode_sha1Init : decodeCmd 0b00000000_00000000_000_0_0011_00000001#32 = .ok (.sha1Init 3#4) := by decide

theorem test_decode_sha1Update : decodeCmd 0b00000000_00000000_000_0_1111_00000010#32 = .ok (.sha1Update 15#4) := by
  decide

theorem test_decode_sha1Block : decodeCmd 0b00000000_00000000_000_0_0010_00000011#32 = .ok (.sha1Block 2#4) := by decide

theorem test_decode_sha1Finish : decodeCmd 0b00000000_00000000_000_0_0001_00000100#32 = .ok (.sha1Finish 1#4) := by
  decide

theorem test_decode_hmacSha1 : decodeCmd 0b00000000_00000000_000_0_0000_00010000#32 = .ok .hmacSha1 := by decide

/-- DIGITS = 6, CKSUM = 1 (95_test_vectors.md section 2.6). -/
theorem test_decode_hotpGen : decodeCmd 0b00000000_00000110_000_1_0000_00100000#32 = .ok (.hotpGen 6#8 true) := by decide

theorem test_decode_totpGen : decodeCmd 0b00000000_11111111_000_0_0000_00100001#32 = .ok (.totpGen 255#8) := by decide

/-- The illegal words of 95_test_vectors.md section 2.6. -/
theorem test_decode_illegal :
    [0x00000000#32, 0x00001001#32, 0x00060001#32, 0x01000001#32, 0x00002004#32, 0x00000110#32, 0x00000005#32,
      0x00081021#32].map decodeCmd = List.replicate 8 (.error .illegalCommand) := by decide

/-- A misaligned offset is refused by name (R117). -/
theorem test_decode_misaligned : decodeBus 0x12200000100#41 = .error .misalignedOffset := by decide

/-- The opcode table's numbering: CMD rows in 32 bits, BUS rows in 41 (48 in whole bytes). -/
theorem test_decodeTableWord :
    decodeTableWord 32 0x00000010 = some .hmacSha1 ∧ decodeTableWord 48 0x12000000000 = some (.regWrite 0x20#8 0#32) ∧
    decodeTableWord 41 0x00000000000 = some (.regRead 0x00#8) ∧ decodeTableWord 32 0x05 = none := by decide +kernel

/-! ### Small states -/

/-- The next state of an outcome, if there is one. -/
def nextOf (o : Host.Outcome State Fault Refusal) : Option State :=
  match o with
  | .next t => some t
  | .fault _ => none
  | .refused _ => none

/-- Argument registers with a message range. -/
def msgArgs (addr len : Word) : ArgRegs := { ArgRegs.reset with msgAddr := addr, msgLen := len }

/-- Argument registers with a key range. -/
def keyArgs (addr len : Word) : ArgRegs := { ArgRegs.reset with keyAddr := addr, keyLen := len }

/-- A state from reset with a command latched, DMEM bytes at address 0 and context 3 as given. -/
def running (w : Word) (a : ArgRegs) (bytes : List Byte) (x : HashContext) : State :=
  { State.reset with
    cmd := w, lcmd := some ⟨w, a⟩, dmem := Memory.write [] 0 bytes, ctx := State.reset.ctx.set 3 x }

/-- The same state with a race marked. -/
def racing (w : Word) (a : ArgRegs) (bytes : List Byte) (x : HashContext) : State :=
  { running w a bytes x with raced := true }

/-- The state from reset with entries in its script. -/
def scripted (es : List Event) : State := { State.reset with script := es }

/-- "abc" in ASCII. -/
def abc : List Byte := [0x61#8, 0x62#8, 0x63#8]

/-- The RFC 4226 secret "12345678901234567890". -/
def secret : List Byte :=
  [0x31#8, 0x32#8, 0x33#8, 0x34#8, 0x35#8, 0x36#8, 0x37#8, 0x38#8, 0x39#8, 0x30#8] ++
  [0x31#8, 0x32#8, 0x33#8, 0x34#8, 0x35#8, 0x36#8, 0x37#8, 0x38#8, 0x39#8, 0x30#8]

/-- An ACTIVE context with "abc" pending. -/
def ctxAbc : HashContext := { HashContext.fresh with buf := abc }

/-- A well-formed ACTIVE context with 63 pending bytes. -/
def ctxFull : HashContext := { HashContext.fresh with buf := zeros 63 }

/-! ### Single steps: expected values from 95_test_vectors.md and the rules' own examples -/

/-- R140: "after reset, `RD ID` returns 0x53484131"; `CAPS` shows N_CTX = 4. -/
theorem test_regRead_id :
    (nextOf (exec (.regRead 0x10#8) State.reset)).map State.observed = some [0x53484131#32] ∧
    (nextOf (exec (.regRead 0x14#8) State.reset)).map State.observed = some [4#32] := by decide

/-- P1 line 18: VIEW_STATE of a CONSUMED context is 2. -/
theorem test_regRead_view :
    (nextOf (exec (.regRead 0xC0#8)
      { running 0x00000304#32 ArgRegs.reset [] HashContext.spent with ctxSel := 3#4 })).map State.observed =
        some [2#32] := by decide

/-- R141: `WR STATUS, 0x0000000E` after a failed command leaves STATUS = 0 and ERRCODE unchanged. -/
theorem test_regWrite_status :
    (nextOf (exec (.regWrite 0x04#8 0x0000000E#32)
      { State.reset with err := true, ovr := true, errcode := .invalidDigits })).map
        (fun t => (t.statusWord, t.errcode)) = some (0#32, .invalidDigits) := by decide

/-- P1 line 2: the word is accepted, STATUS reads BUSY only, CMD reads it back. -/
theorem test_regWrite_cmd :
    (nextOf (exec (.regWrite 0x00#8 0x00000101#32) { State.reset with done := true })).map
      (fun t => (t.statusWord, t.cmd, t.lcmd.map Lcmd.word)) = some (1#32, 0x101#32, some 0x101#32) := by decide

/-- R200: `CMD SHA1_INIT ctx=2` leaves ctx[2] ACTIVE with the IV. -/
theorem test_sha1Init :
    (nextOf (exec (.sha1Init 2#4) (running 0x00000201#32 ArgRegs.reset [] HashContext.spent))).map
      (fun t => (t.ctx[2]?, t.statusWord)) =
    some (some ⟨.active, ⟨0x67452301#32, 0xEFCDAB89#32, 0x98BADCFE#32, 0x10325476#32, 0xC3D2E1F0#32⟩, 0#32, 0#32, []⟩,
      2#32) := by decide

/-- Section 2.6: 0x00000401 gives BAD_CTX when N_CTX = 4. -/
theorem test_sha1Init_bad_ctx :
    (nextOf (exec (.sha1Init 4#4) (running 0x00000401#32 ArgRegs.reset [] HashContext.spent))).map
      (fun t => (t.errcode, t.statusWord)) = some (.badCtx, 4#32) := by decide

/-- R202: "abc" on a fresh context leaves H0 = IV, LEN = 0, BUF = 61 62 63. -/
theorem test_sha1Update_pending :
    (nextOf (exec (.sha1Update 3#4) (running 0x00000302#32 (msgArgs 0#32 3#32) abc HashContext.fresh))).map
      (fun t => t.ctx[3]?) = some (some { HashContext.fresh with buf := abc }) := by decide

/-- V11: 64 bytes "a" in one command give H0 = 0xDA4968EB, LEN = 64, PLEN = 0. -/
theorem test_sha1Update_flush :
    (nextOf (exec (.sha1Update 3#4)
      (running 0x00000302#32 (msgArgs 0#32 64#32) (List.replicate 64 0x61#8) HashContext.fresh))).map
      (fun t => t.ctx[3]?.map (fun x => (x.h.h0, x.lenLo, x.lenHi, x.buf))) =
    some (some (0xDA4968EB#32, 64#32, 0#32, [])) := by decide +kernel

/-- R206: the padded block of "abc" leaves H = the digest of "abc", LEN = 64, PLEN = 0. -/
theorem test_sha1Block :
    (nextOf (exec (.sha1Block 3#4)
      (running 0x00000303#32 (msgArgs 0#32 64#32) (abc ++ [0x80#8] ++ zeros 59 ++ [0x18#8]) HashContext.fresh))).map
      (fun t => t.ctx[3]?) =
    some (some ⟨.active, ⟨0xA9993E36#32, 0x4706816A#32, 0xBA3E2571#32, 0x7850C26C#32, 0x9CD0D89D#32⟩, 64#32, 0#32, []⟩)
    := by decide +kernel

/-- V14: MSG_LEN = 63 gives BLOCK_LEN and changes no context. -/
theorem test_sha1Block_len :
    (nextOf (exec (.sha1Block 3#4) (running 0x00000303#32 (msgArgs 0#32 63#32) [] ctxAbc))).map
      (fun t => (t.errcode, t.ctx[3]?)) = some (.blockLen, some ctxAbc) := by decide

/-- R209: finishing "abc" sets DIGEST0..4; R211: the context is CONSUMED and zero. -/
theorem test_sha1Finish :
    (nextOf (exec (.sha1Finish 3#4) (running 0x00000304#32 ArgRegs.reset [] ctxAbc))).map
      (fun t => (t.digest, t.ctx[3]?)) =
    some (⟨0xA9993E36#32, 0x4706816A#32, 0xBA3E2571#32, 0x7850C26C#32, 0x9CD0D89D#32⟩,
      some ⟨.consumed, ⟨0#32, 0#32, 0#32, 0#32, 0#32⟩, 0#32, 0#32, []⟩) := by decide +kernel

/-- V8: a second finish fails with CTX_STATE and leaves DIGEST. -/
theorem test_sha1Finish_twice :
    (nextOf (exec (.sha1Finish 3#4) (running 0x00000304#32 ArgRegs.reset [] HashContext.spent))).map
      (fun t => (t.errcode, t.digest)) = some (.ctxState, Chain.zero) := by decide

/-- H5: empty key, empty message. -/
theorem test_hmacSha1 :
    (nextOf (exec .hmacSha1 (running 0x00000010#32 ArgRegs.reset [] HashContext.fresh))).map State.digest =
    some ⟨0xFBDB1D1B#32, 0x18AA6C08#32, 0x324B7D64#32, 0xB71FB763#32, 0x70690E1D#32⟩ := by decide +kernel

/-- H8 and P4 line 7: a message range past MEM_SIZE gives HASH_FAILURE, DIGEST unchanged. -/
theorem test_hmacSha1_range :
    (nextOf (exec .hmacSha1 (running 0x00000010#32 (msgArgs 0xFF0#32 54#32) [] HashContext.fresh))).map
      (fun t => (t.errcode, t.digest)) = some (.hashFailure, Chain.zero) := by decide

/-- Section 4, counter 4 with 7 digits: the leading zero of "0338314". -/
theorem test_hotpGen :
    (nextOf (exec (.hotpGen 7#8 true)
      (running 0x00071020#32 { keyArgs 0#32 20#32 with cntLo := 4#32 } secret HashContext.fresh))).map
      (fun t => (t.otp, t.digest.h0)) =
    some (⟨338314#32, 0x61C5938A#32, 0x30333338#32, 0x33313400#32⟩, 0xA904C900#32) := by decide +kernel

/-- P2 line 14: 9 digits give INVALID_DIGITS. -/
theorem test_hotpGen_digits :
    (nextOf (exec (.hotpGen 9#8 false) (running 0x00090020#32 (keyArgs 0#32 20#32) secret HashContext.fresh))).map
      (fun t => (t.errcode, t.otp)) = some (.invalidDigits, OtpRegs.reset) := by decide

/-- T13: now = -1, start_offset = -61, STEP = 30: counter 2, 37359152. -/
theorem test_totpGen :
    (nextOf (exec (.totpGen 8#8)
      (running 0x00080021#32 { keyArgs 0#32 20#32 with
        timeLo := 0xFFFFFFFF#32, timeHi := 0xFFFFFFFF#32, t0Lo := 0xFFFFFFC3#32, t0Hi := 0xFFFFFFFF#32, step := 30#32 }
        secret HashContext.fresh))).map
      (fun t => (t.totpCntHi, t.totpCntLo, t.otp.value, t.otp.str0, t.otp.str1)) =
    some (0#32, 2#32, 37359152#32, 0x33373335#32, 0x39313532#32) := by decide +kernel

/-- T17: digits 9 with now < start_offset gives INVALID_DIGITS first; T16: digits 8 gives INVALID_TIMESTAMP. -/
theorem test_totpGen_errors :
    (nextOf (exec (.totpGen 9#8)
      (running 0x00090021#32 { keyArgs 0#32 20#32 with timeLo := 5#32, t0Lo := 10#32 } [] HashContext.fresh))).map
      State.errcode = some .invalidDigits ∧
    (nextOf (exec (.totpGen 8#8)
      (running 0x00080021#32 { keyArgs 0#32 20#32 with timeLo := 5#32, t0Lo := 10#32 } [] HashContext.fresh))).map
      State.errcode = some .invalidTimestamp := by decide

/-- Section 2.5: the three vectors of `AddLen`. -/
theorem test_addLen :
    addLen 0#32 0xFFFFFFC0#32 64 = (1#32, 0#32) ∧ addLen 0#32 0x40#32 0x100000000 = (1#32, 0x40#32) ∧
    addLen 0xFFFFFFFF#32 0xFFFFFFC0#32 64 = (0#32, 0#32) := by decide

/-- Section 2.1: the working variables after rounds 0 and 19 of the block of "abc". -/
theorem test_rounds :
    ((Datapath.start sha1IV (pad abc 3#64)).run 1).v =
      ⟨0x0116FC33#32, 0x67452301#32, 0x7BF36AE2#32, 0x98BADCFE#32, 0x10325476#32⟩ ∧
    ((Datapath.start sha1IV (pad abc 3#64)).run 20).v =
      ⟨0xFD9E1D7D#32, 0xDC64901D#32, 0x20AA99CA#32, 0xD3A49608#32, 0xC82F758B#32⟩ := by decide +kernel

/-- The reset state's own step: with nothing placed the machine idles (log 10). -/
theorem test_reset_idles : step State.reset = .next State.reset := rfl

/-! ### Witnesses: for each statement with hypotheses, a state and operands that meet them all -/

theorem witness_DecodeOfEncode : Instr.wf (.regWrite 0xFC#8 0xFFFFFFFF#32) = true ∧ Instr.wf (.sha1Init 15#4) = true := by
  decide

theorem witness_AcceptedPatternHasOneMeaning :
    (decode (.bus 0x1FC00000001#41) = .ok (.regWrite 0xFC#8 1#32) ∧
      ∀ o, Instr.regWrite 0xFC#8 1#32 ≠ .regRead o) ∧
    (decode (.cmd 0x00FF1020#32) = .ok (.hotpGen 255#8 true) ∧ ∀ o, Instr.hotpGen 255#8 true ≠ .regRead o) :=
  ⟨⟨by decide, by simp⟩, by decide, by simp⟩

theorem witness_StepRunsDecodedOperation :
    ((scripted [.engine]).accept 0x10#32).script = [.engine] ∧
    ((scripted [.engine]).accept 0x10#32).lcmd = some ⟨0x10#32, ArgRegs.reset⟩ ∧
    decodeCmd 0x10#32 = .ok .hmacSha1 ∧
    (State.reset.accept 0x10#32).script = [] ∧ (State.reset.accept 0x10#32).lcmd = some ⟨0x10#32, ArgRegs.reset⟩ ∧
    (scripted [.bus .word 0x00400000000#41]).script = [.bus .word 0x00400000000#41] ∧
    decodeBus 0x00400000000#41 = .ok (.regRead 0x04#8) ∧
    (scripted [.engine]).lcmd = none ∧ State.reset.script = [] ∧ State.reset.lcmd = none := by decide

theorem witness_PlacedOperationRunsNext :
    decodeCmd 0x00FF1020#32 = .ok (.hotpGen 255#8 true) ∧ decodeBus 0x1FC00000001#41 = .ok (.regWrite 0xFC#8 1#32) := by
  decide

theorem witness_OnlyAlignedWordAccesses :
    (scripted [.bus .word 0x0FC00000000#41]).script = [.bus .word 0x0FC00000000#41] ∧
    (busOffset 0x0FC00000000#41).toNat % 4 = 0 ∧ (busOffset 0x00100000000#41).toNat % 4 ≠ 0 ∧
    (busOffset 0x0FF00000000#41).toNat % 4 ≠ 0 ∧ BusSize.byte ≠ .word ∧ BusSize.half ≠ .word := by decide

theorem witness_IllegalWordReported :
    (scripted [.bus .word (encodeBus true 0x00#8 0#32), .engine]).lcmd = none ∧
    decodeCmd 0#32 = .error .illegalCommand ∧
    (scripted [.bus .word (encodeBus true 0x00#8 0#32), .engine]).script =
      .bus .word (encodeBus true 0x00#8 0#32) :: .engine :: [] := by decide

theorem witness_ResetInputState :
    ((scripted [.reset]).accept 0x10#32).script = .reset :: [] ∧ ((scripted [.reset]).accept 0x10#32).busy = true := by
  decide

theorem witness_contextCounts :
    (1 ≤ (State.resetWith 1 Config.default).ctx.length ∧ (State.resetWith 1 Config.default).ctx.length ≤ 16) ∧
    (1 ≤ (State.resetWith 16 Config.default).ctx.length ∧ (State.resetWith 16 Config.default).ctx.length ≤ 16) := by
  decide

/-- For `RegistersAfterReset` and `CapsHardwired`: 1 and 16 contexts. -/
theorem witness_RegistersAfterReset :
    1 ≤ (State.resetWith 16 Config.default).ctx.length ∧ (State.resetWith 16 Config.default).ctx.length ≤ 16 :=
  witness_contextCounts.2

theorem witness_CapsHardwired :
    1 ≤ (State.resetWith 1 Config.default).ctx.length ∧ (State.resetWith 1 Config.default).ctx.length ≤ 16 ∧ 5 ≤ 5 := by
  decide

theorem witness_RegReadReturnsValue : (0x00#8 : BitVec 8).toNat % 4 = 0 ∧ (0xFC#8 : BitVec 8).toNat % 4 = 0 := by decide

theorem witness_RegisterValuesRead : 4 ≤ 4 := by decide

theorem witness_CtrlRegister :
    1 ≤ 1 ∧ ({ State.reset with ie := true, done := true } : State).irq = true ∧
    ({ State.reset with ie := true, done := true } : State).ie = true := by decide

theorem witness_ContextViews :
    (running 0x00000302#32 ArgRegs.reset [] ctxFull).ctx[3]? = some ctxFull ∧
    ({ running 0x00000302#32 ArgRegs.reset [] ctxFull with ctxSel := 3#4 } : State).ctx[
      ({ running 0x00000302#32 ArgRegs.reset [] ctxFull with ctxSel := 3#4 } : State).ctxSel.toNat]? = some ctxFull ∧
    ctxFull.buf.length < 64 ∧
    ({ State.reset with ctxSel := 4#4 } : State).ctx.length ≤ ({ State.reset with ctxSel := 4#4 } : State).ctxSel.toNat ∧
    (List.replicate 63 0xFF#8).length = ctxFull.buf.length := by decide

/-- The last clause of `ContextViews`: a step that leaves the command executing. -/
theorem witness_ContextViews_busy :
    ∃ t, step ((scripted [.bus .word (encodeBus true 0x0C#8 1#32)]).accept 0x10#32) = .next t ∧ t.busy = true :=
  ⟨_, rfl, rfl⟩

/-- The first and last offset of each reserved range. -/
theorem witness_ReservedSpace : ∀ offset ∈ [0x18#8, 0x1C#8, 0x54#8, 0x5C#8, 0x74#8, 0x7C#8, 0x98#8, 0x9C#8, 0xC4#8, 0xFC#8],
    offset.toNat % 4 = 0 ∧
    (0x18 ≤ offset.toNat ∧ offset.toNat ≤ 0x1C ∨ 0x54 ≤ offset.toNat ∧ offset.toNat ≤ 0x5C ∨
      0x74 ≤ offset.toNat ∧ offset.toNat ≤ 0x7C ∨ 0x98 ≤ offset.toNat ∧ offset.toNat ≤ 0x9C ∨
      0xC4 ≤ offset.toNat) := by decide

theorem witness_RegWriteByOffset : ∀ offset ∈ [0x08#8, 0x1C#8, 0x54#8, 0x60#8, 0xC0#8, 0xFC#8],
    offset.toNat % 4 = 0 ∧ offset ∉ [0x00#8, 0x04#8, 0x0C#8, 0x50#8] ∧
    ¬ (0x20 ≤ offset.toNat ∧ offset.toNat ≤ 0x4C) := by decide

theorem witness_ArgumentRegistersStore : ∀ offset ∈ [0x20#8, 0x4C#8],
    offset.toNat % 4 = 0 ∧ 0x20 ≤ offset.toNat ∧ offset.toNat ≤ 0x4C ∧ 0x50#8 ≠ offset := by decide

theorem witness_RegWriteFrame : ∃ t, exec (.regWrite 0x00#8 0x10#32) State.reset = .next t := ⟨_, rfl⟩

/-- One witness for each clause: idle, busy, and a command executing unraced. -/
theorem witness_CommandWriteLatchesOrIsDropped :
    State.reset.lcmd = none ∧ (State.reset.accept 0x10#32).lcmd = some ⟨0x10#32, ArgRegs.reset⟩ ∧
    Instr.isCommand (.sha1Init 0#4) = true ∧ (State.reset.accept 0x01#32).raced = false ∧
    ∃ t, exec (.sha1Init 0#4) (State.reset.accept 0x01#32) = .next t := ⟨rfl, rfl, rfl, rfl, _, rfl⟩

theorem witness_InterruptOutput : ({ State.reset with ie := true } : State).ie = true := rfl

theorem witness_Sha1InitResult :
    (running 0x00000301#32 ArgRegs.reset [] ctxAbc).lcmd = some ⟨0x00000301#32, ArgRegs.reset⟩ ∧
    (running 0x00000301#32 ArgRegs.reset [] ctxAbc).raced = false ∧
    (3#4 : BitVec 4).toNat < (running 0x00000301#32 ArgRegs.reset [] ctxAbc).ctx.length := by decide

/-- A message of three bytes at the very end of DMEM (MEM_SIZE = 0x1000), 63 bytes pending. -/
theorem witness_Sha1UpdateResult :
    (running 0x00000302#32 (msgArgs 0xFFD#32 3#32) abc ctxFull).lcmd = some ⟨0x00000302#32, msgArgs 0xFFD#32 3#32⟩ ∧
    (running 0x00000302#32 (msgArgs 0xFFD#32 3#32) abc ctxFull).raced = false ∧
    (running 0x00000302#32 (msgArgs 0xFFD#32 3#32) abc ctxFull).ctx[(3#4 : BitVec 4).toNat]? = some ctxFull ∧
    ctxFull.state = .active ∧
    memRead (running 0x00000302#32 (msgArgs 0xFFD#32 3#32) abc ctxFull) (msgArgs 0xFFD#32 3#32).msgAddr
      (msgArgs 0xFFD#32 3#32).msgLen = .ok [0#8, 0#8, 0#8] := ⟨rfl, rfl, rfl, rfl, rfl⟩

theorem witness_Sha1BlockResult :
    (running 0x00000303#32 (msgArgs 0#32 64#32) abc ctxAbc).lcmd = some ⟨0x00000303#32, msgArgs 0#32 64#32⟩ ∧
    (running 0x00000303#32 (msgArgs 0#32 64#32) abc ctxAbc).raced = false ∧
    (running 0x00000303#32 (msgArgs 0#32 64#32) abc ctxAbc).ctx[(3#4 : BitVec 4).toNat]? = some ctxAbc ∧
    ctxAbc.state = .active ∧ (msgArgs 0#32 64#32).msgLen.toNat % 64 = 0 ∧
    memRead (running 0x00000303#32 (msgArgs 0#32 64#32) abc ctxAbc) (msgArgs 0#32 64#32).msgAddr
      (msgArgs 0#32 64#32).msgLen = .ok (abc ++ zeros 61) := ⟨rfl, rfl, rfl, rfl, rfl, rfl⟩

theorem witness_Sha1FinishResult :
    (running 0x00000304#32 ArgRegs.reset [] ctxFull).lcmd = some ⟨0x00000304#32, ArgRegs.reset⟩ ∧
    (running 0x00000304#32 ArgRegs.reset [] ctxFull).raced = false ∧
    (running 0x00000304#32 ArgRegs.reset [] ctxFull).ctx[(3#4 : BitVec 4).toNat]? = some ctxFull ∧
    ctxFull.state = .active := ⟨rfl, rfl, rfl, rfl⟩

/-- `K0` of a key at each side of the bound: 64 bytes are used as they are, 65 are reduced (R230). -/
theorem witness_HmacResult_key :
    (zeros 64 = (if 64 < (zeros 64).length then sha1 (zeros 64) else zeros 64) ∧
      zeros 64 = zeros 64 ++ List.replicate (64 - (zeros 64).length) 0#8) ∧
    ∃ k k0, k = (if 64 < (zeros 65).length then sha1 (zeros 65) else zeros 65) ∧
      k0 = k ++ List.replicate (64 - k.length) 0#8 := ⟨⟨rfl, rfl⟩, _, _, rfl, rfl⟩

/-- Key and message in the same bytes (R82: the two ranges may coincide). -/
theorem witness_HmacResult :
    (running 0x10#32 { msgArgs 0#32 3#32 with keyLen := 3#32 } abc ctxAbc).lcmd =
      some ⟨0x10#32, { msgArgs 0#32 3#32 with keyLen := 3#32 }⟩ ∧
    (running 0x10#32 { msgArgs 0#32 3#32 with keyLen := 3#32 } abc ctxAbc).raced = false ∧
    memRead (running 0x10#32 { msgArgs 0#32 3#32 with keyLen := 3#32 } abc ctxAbc) 0#32 3#32 = .ok abc :=
  ⟨rfl, rfl, rfl⟩

theorem witness_HotpResult :
    (running 0x00080020#32 (keyArgs 0#32 20#32) secret ctxAbc).lcmd = some ⟨0x00080020#32, keyArgs 0#32 20#32⟩ ∧
    (running 0x00080020#32 (keyArgs 0#32 20#32) secret ctxAbc).raced = false ∧
    ((8#8 : BitVec 8) = 6#8 ∨ (8#8 : BitVec 8) = 7#8 ∨ (8#8 : BitVec 8) = 8#8) ∧
    memRead (running 0x00080020#32 (keyArgs 0#32 20#32) secret ctxAbc) (keyArgs 0#32 20#32).keyAddr
      (keyArgs 0#32 20#32).keyLen = .ok secret ∧
    ∃ hs, hs = hmac secret (be64bytes (dword (keyArgs 0#32 20#32).cntHi (keyArgs 0#32 20#32).cntLo)) :=
  ⟨rfl, rfl, by decide, rfl, _, rfl⟩

/-- now = start_offset = 0, STEP = 0. -/
theorem witness_TotpResult :
    (running 0x00060021#32 (keyArgs 0#32 20#32) secret ctxAbc).lcmd = some ⟨0x00060021#32, keyArgs 0#32 20#32⟩ ∧
    (running 0x00060021#32 (keyArgs 0#32 20#32) secret ctxAbc).raced = false ∧
    ((6#8 : BitVec 8) = 6#8 ∨ (6#8 : BitVec 8) = 7#8 ∨ (6#8 : BitVec 8) = 8#8) ∧
    sint64 (keyArgs 0#32 20#32).t0Hi (keyArgs 0#32 20#32).t0Lo ≤
      sint64 (keyArgs 0#32 20#32).timeHi (keyArgs 0#32 20#32).timeLo ∧
    memRead (running 0x00060021#32 (keyArgs 0#32 20#32) secret ctxAbc) (keyArgs 0#32 20#32).keyAddr
      (keyArgs 0#32 20#32).keyLen = .ok secret ∧
    ∃ counter hs, counter = BitVec.ofNat 64
        ((sint64 (keyArgs 0#32 20#32).timeHi (keyArgs 0#32 20#32).timeLo -
          sint64 (keyArgs 0#32 20#32).t0Hi (keyArgs 0#32 20#32).t0Lo).toNat /
        (if (keyArgs 0#32 20#32).step = 0#32 then 30 else (keyArgs 0#32 20#32).step.toNat)) ∧
      hs = hmac secret (be64bytes counter) :=
  ⟨rfl, rfl, by decide, by decide, rfl, _, _, rfl, rfl⟩

theorem witness_BadContextReported :
    (State.reset.accept 0x00000401#32).lcmd = some ⟨0x00000401#32, ArgRegs.reset⟩ ∧
    (State.reset.accept 0x00000401#32).ctx.length ≤ (4#4 : BitVec 4).toNat := by decide

/-- An INVALID and a CONSUMED context. -/
theorem witness_InactiveContextReported :
    (running 0x00000302#32 ArgRegs.reset [] HashContext.spent).lcmd = some ⟨0x00000302#32, ArgRegs.reset⟩ ∧
    (running 0x00000302#32 ArgRegs.reset [] HashContext.spent).ctx[(3#4 : BitVec 4).toNat]? = some HashContext.spent ∧
    HashContext.spent.state ≠ .active ∧
    (running 0x00000302#32 ArgRegs.reset [] HashContext.spent).ctx[(0#4 : BitVec 4).toNat]? = some HashContext.reset ∧
    HashContext.reset.state ≠ .active := by decide

theorem witness_BlockLengthReported :
    (running 0x00000303#32 (msgArgs 0#32 63#32) [] ctxAbc).lcmd = some ⟨0x00000303#32, msgArgs 0#32 63#32⟩ ∧
    (running 0x00000303#32 (msgArgs 0#32 63#32) [] ctxAbc).ctx[(3#4 : BitVec 4).toNat]? = some ctxAbc ∧
    ctxAbc.state = .active ∧ (msgArgs 0#32 63#32).msgLen.toNat % 64 ≠ 0 := by decide

theorem witness_InvalidDigitsReported :
    (State.reset.accept 0x00050020#32).lcmd = some ⟨0x00050020#32, ArgRegs.reset⟩ ∧
    (∀ d ∈ [0#8, 5#8, 9#8, 255#8], d.toNat ≠ 6 ∧ d.toNat ≠ 7 ∧ d.toNat ≠ 8) ∧
    (∀ d ∈ [6#8, 7#8, 8#8], d.toNat = 6 ∨ d.toNat = 7 ∨ d.toNat = 8) := by decide

/-- now = -1 against start_offset = 0: the comparison is signed. -/
theorem witness_EarlyTimestampReported :
    (running 0x00080021#32 { ArgRegs.reset with timeLo := 0xFFFFFFFF#32, timeHi := 0xFFFFFFFF#32 } [] ctxAbc).lcmd =
      some ⟨0x00080021#32, { ArgRegs.reset with timeLo := 0xFFFFFFFF#32, timeHi := 0xFFFFFFFF#32 }⟩ ∧
    ((8#8 : BitVec 8) = 6#8 ∨ (8#8 : BitVec 8) = 7#8 ∨ (8#8 : BitVec 8) = 8#8) ∧
    sint64 0xFFFFFFFF#32 0xFFFFFFFF#32 < sint64 0#32 0#32 := by decide

/-- A range that ends one byte past MEM_SIZE, for the key and for the message, on an ACTIVE context. -/
theorem witness_HashFailureReported :
    (running 0x10#32 { msgArgs 0xFC1#32 64#32 with keyAddr := 0xFC1#32, keyLen := 64#32 } [] ctxAbc).lcmd =
      some ⟨0x10#32, { msgArgs 0xFC1#32 64#32 with keyAddr := 0xFC1#32, keyLen := 64#32 }⟩ ∧
    (running 0x10#32 { msgArgs 0xFC1#32 64#32 with keyAddr := 0xFC1#32, keyLen := 64#32 } [] ctxAbc).ctx[
      (3#4 : BitVec 4).toNat]? = some ctxAbc ∧
    ctxAbc.state = .active ∧ (64#32 : Word).toNat % 64 = 0 ∧
    memRead (running 0x10#32 { msgArgs 0xFC1#32 64#32 with keyAddr := 0xFC1#32, keyLen := 64#32 } [] ctxAbc)
      0xFC1#32 64#32 = .error .hashFailure ∧
    ((7#8 : BitVec 8) = 6#8 ∨ (7#8 : BitVec 8) = 7#8 ∨ (7#8 : BitVec 8) = 8#8) ∧
    sint64 0#32 0#32 ≤ sint64 0#32 0#32 := ⟨rfl, rfl, rfl, rfl, rfl, by decide, le_refl _⟩

/-- A state whose DMEM address 5 fails. -/
def faulty : State := { State.reset with cfg := { memSize := 0x1000, dmemFault := [5] } }

/-- One witness for each clause, the last at a range that ends exactly at MEM_SIZE, and one between faulting bytes. -/
theorem witness_MemReadByCases :
    (1#32 : Word) ≠ 0#32 ∧ State.reset.cfg.memSize < (0x1000#32 : Word).toNat + (1#32 : Word).toNat ∧
    (∃ f ∈ faulty.cfg.dmemFault, (5#32 : Word).toNat ≤ f ∧ f < (5#32 : Word).toNat + (1#32 : Word).toNat) ∧
    (0xFFF#32 : Word).toNat + (1#32 : Word).toNat ≤ faulty.cfg.memSize ∧
    (∀ f ∈ faulty.cfg.dmemFault, f < (0xFFF#32 : Word).toNat ∨ (0xFFF#32 : Word).toNat + (1#32 : Word).toNat ≤ f) ∧
    (∀ f ∈ faulty.cfg.dmemFault, f < (4#32 : Word).toNat ∨ (4#32 : Word).toNat + (1#32 : Word).toNat ≤ f) := by decide

theorem witness_ErrorsArePrecise :
    Instr.isCommand (.sha1Finish 0#4) = true ∧ (State.reset.accept 0x04#32).err = false ∧
    ∃ t, exec (.sha1Finish 0#4) (State.reset.accept 0x04#32) = .next t ∧ t.err = true := ⟨rfl, rfl, _, rfl, rfl⟩

theorem witness_CommandEndsOneOfTwoWays :
    (State.reset.accept 0x04#32).lcmd = some ⟨0x04#32, ArgRegs.reset⟩ ∧ (State.reset.accept 0x04#32).done = false ∧
    (State.reset.accept 0x04#32).err = false ∧ (State.reset.accept 0x04#32).script = [] ∧
    ((scripted [.engine]).accept 0x04#32).script = .engine :: [] := ⟨rfl, rfl, rfl, rfl, rfl⟩

/-- For the frame statements of the commands. -/
theorem witness_CommandsLeaveHostStateAlone :
    Instr.isCommand (.sha1Init 1#4) = true ∧ ∃ t, exec (.sha1Init 1#4) (State.reset.accept 0x00000101#32) = .next t :=
  ⟨rfl, _, rfl⟩

/-- Each clause: a command that writes no digest, no OTP result and no TOTP counter. -/
theorem witness_ResultsOnlyFromTheirCommands :
    (∃ t, exec (.sha1Init 1#4) (State.reset.accept 0x00000101#32) = .next t) ∧
    Instr.isCommand (.sha1Init 1#4) = true ∧ Instr.writesDigest (.sha1Init 1#4) = false ∧
    Instr.writesOtp .hmacSha1 = false ∧ Instr.writesTotpCnt (.hotpGen 6#8 false) = false := ⟨⟨_, rfl⟩, rfl, rfl, rfl, rfl⟩

theorem witness_OtherContextsUntouched :
    Instr.isCommand (.sha1Init 1#4) = true ∧ (∃ t, exec (.sha1Init 1#4) (State.reset.accept 0x00000101#32) = .next t) ∧
    ∀ c, Instr.ctxOf (.sha1Init 1#4) = some c → c.toNat ≠ 0 := by
  refine ⟨rfl, ⟨_, rfl⟩, fun c h => ?_⟩
  cases h
  decide

theorem witness_EngineNeverWritesDmem :
    (∀ a b rest, (State.reset.accept 0x04#32).script ≠ .dmemWrite a b :: rest) ∧
    (∃ t, step (State.reset.accept 0x04#32) = .next t) ∧ Instr.isCommand (.sha1Finish 0#4) = true ∧
    ∃ t, exec (.sha1Finish 0#4) (State.reset.accept 0x04#32) = .next t := by
  refine ⟨fun _ _ _ h => ?_, ⟨_, rfl⟩, rfl, _, rfl⟩
  cases h

/-- The last byte of DMEM, one byte past it, and a write of no bytes there. -/
theorem witness_HostDmemWriteBytes :
    (scripted [.dmemWrite 0xFFF#32 [1#8]]).script = .dmemWrite 0xFFF#32 [1#8] :: [] ∧
    (scripted [.dmemWrite 0xFFF#32 [1#8]]).dmem.wf = true ∧ [(1#8 : Byte)] ≠ [] ∧
    (scripted [.dmemWrite 0x1000#32 []]).script = .dmemWrite 0x1000#32 [] :: [] ∧
    (scripted [.dmemWrite 0x1000#32 []]).dmem.wf = true ∧
    (0xFFF#32 : Word).toNat + [(1#8 : Byte)].length ≤ (scripted [.dmemWrite 0xFFF#32 [1#8]]).cfg.memSize ∧
    (scripted [.dmemWrite 0xFFF#32 [1#8]]).cfg.memSize < (0x1000#32 : Word).toNat + [(1#8 : Byte)].length := by decide

theorem witness_RaceMarkedExactly :
    ({ running 0x00000302#32 (msgArgs 0#32 3#32) abc ctxAbc with script := [.dmemWrite 2#32 [9#8]] } : State).lcmd =
      some ⟨0x00000302#32, msgArgs 0#32 3#32⟩ ∧
    decodeCmd 0x00000302#32 = .ok (.sha1Update 3#4) ∧
    (running 0x00000302#32 (msgArgs 0#32 3#32) abc ctxAbc).raced = false ∧
    ∃ t, step { running 0x00000302#32 (msgArgs 0#32 3#32) abc ctxAbc with script := [.dmemWrite 2#32 [9#8]] } =
      .next t ∧ t.raced = true := ⟨rfl, rfl, rfl, _, rfl, rfl⟩

/-- The byte just past the range does not race, and an illegal word never does. -/
theorem witness_RaceMarkedExactly_unmarked :
    (∃ t, step { running 0x00000302#32 (msgArgs 0#32 3#32) abc ctxAbc with script := [.dmemWrite 3#32 [9#8]] } =
      .next t ∧ t.raced = false) ∧
    decodeCmd 0x05#32 = .error .illegalCommand ∧
    (∃ t, step { running 0x05#32 (msgArgs 0#32 3#32) abc ctxAbc with script := [.dmemWrite 2#32 [9#8]] } =
      .next t ∧ t.raced = false) := ⟨⟨_, rfl, rfl⟩, rfl, _, rfl, rfl⟩

theorem witness_RacedCommandKeepsOutcome :
    Instr.isCommand (.sha1Update 3#4) = true ∧
    (racing 0x00000302#32 (msgArgs 0#32 3#32) abc ctxAbc).lcmd = some ⟨0x00000302#32, msgArgs 0#32 3#32⟩ ∧
    (racing 0x00000302#32 (msgArgs 0#32 3#32) abc ctxAbc).raced = true ∧
    (∀ c, Instr.ctxOf (.sha1Update 3#4) = some c → c.toNat ≠ 2) ∧ Instr.writesDigest (.sha1Update 3#4) = false ∧
    Instr.writesOtp (.sha1Update 3#4) = false ∧ Instr.writesTotpCnt (.sha1Update 3#4) = false := by
  refine ⟨rfl, rfl, rfl, fun c h => ?_, rfl, rfl, rfl⟩
  cases h
  decide

/-- A raced command that fails: the context is not ACTIVE. -/
theorem witness_RacedCommandKeepsOutcome_failing :
    ∃ u, exec (.sha1Update 3#4) { racing 0x00000302#32 (msgArgs 0#32 3#32) abc HashContext.spent with raced := false } =
      .next u ∧ u.errcode ≠ .none := ⟨_, rfl, by decide⟩

theorem witness_ResultsChangeOnlyAtCommit :
    ∃ t, step (State.reset.accept 0x01#32) = .next t ∧ t.ctx ≠ (State.reset.accept 0x01#32).ctx :=
  ⟨_, rfl, by decide⟩

/-- One padding block at 55 pending bytes, two at 56; a zero byte strictly between the marker and the length. -/
theorem witness_PaddingAndByteOrder :
    ((zeros 55).length < 64 ∧ (zeros 55).length ≤ 55) ∧ ((zeros 56).length < 64 ∧ 56 ≤ (zeros 56).length) ∧
    ((zeros 54).length < 55 ∧ 55 + 8 < (pad (zeros 54) 54#64).length) ∧ (zeros 20).length = 20 := by decide

/-- The schedule words of a block, unrolled, latest first: `n` words by R175. -/
def unrolled (blk : List Byte) : Nat → List Word
  | 0 => []
  | t + 1 =>
    (if t < 16 then be32 (blk.drop (4 * t))
      else ((unrolled blk t).getD 2 0#32 ^^^ (unrolled blk t).getD 7 0#32 ^^^ (unrolled blk t).getD 13 0#32 ^^^
        (unrolled blk t).getD 15 0#32).rotateLeft 1) :: unrolled blk t

/-- `W_t` of the block. -/
def unrolledWord (blk : List Byte) (t : Nat) : Word := (unrolled blk (t + 1)).getD 0 0#32

/-- The working variables after n rounds by R176, with `f_t` and `K_t` by the ranges of R173 and R174. -/
def unrolledRounds (h : Chain) (w : Nat → Word) : Nat → Work
  | 0 => ⟨h.h0, h.h1, h.h2, h.h3, h.h4⟩
  | t + 1 =>
    let v := unrolledRounds h w t
    { a := v.a.rotateLeft 5 +
        (if t ≤ 19 then (v.b &&& v.c) ||| (~~~v.b &&& v.d) else if t ≤ 39 then v.b ^^^ v.c ^^^ v.d
          else if t ≤ 59 then (v.b &&& v.c) ||| (v.b &&& v.d) ||| (v.c &&& v.d) else v.b ^^^ v.c ^^^ v.d) +
        v.e +
        (if t ≤ 19 then 0x5A827999#32 else if t ≤ 39 then 0x6ED9EBA1#32 else if t ≤ 59 then 0x8F1BBCDC#32
          else 0xCA62C1D6#32) + w t
      b := v.a, c := v.b.rotateLeft 30, d := v.c, e := v.d }

/-- The padded block of "abc" (95_test_vectors.md section 2.1). -/
def abcBlock : List Byte := abc ++ [0x80#8] ++ zeros 59 ++ [0x18#8]

/-- The block of "abc" with its schedule and rounds, and a whole block before an empty rest. -/
theorem witness_Sha1FromRounds :
    abcBlock.length = 64 ∧
    (∀ j, j < 16 → (unrolledWord abcBlock j).toNat =
      (abcBlock.getD (4 * j) 0#8).toNat * 2 ^ 24 + (abcBlock.getD (4 * j + 1) 0#8).toNat * 2 ^ 16 +
        (abcBlock.getD (4 * j + 2) 0#8).toNat * 2 ^ 8 + (abcBlock.getD (4 * j + 3) 0#8).toNat) ∧
    (∀ t, t < 80 → 16 ≤ t → unrolledWord abcBlock t =
      (unrolledWord abcBlock (t - 3) ^^^ unrolledWord abcBlock (t - 8) ^^^ unrolledWord abcBlock (t - 14) ^^^
        unrolledWord abcBlock (t - 16)).rotateLeft 1) ∧
    unrolledRounds sha1IV (unrolledWord abcBlock) 0 = ⟨sha1IV.h0, sha1IV.h1, sha1IV.h2, sha1IV.h3, sha1IV.h4⟩ ∧
    (∀ t, t < 80 → unrolledRounds sha1IV (unrolledWord abcBlock) (t + 1) =
      let v := unrolledRounds sha1IV (unrolledWord abcBlock) t
      { a := v.a.rotateLeft 5 +
          (if t ≤ 19 then (v.b &&& v.c) ||| (~~~v.b &&& v.d) else if t ≤ 39 then v.b ^^^ v.c ^^^ v.d
            else if t ≤ 59 then (v.b &&& v.c) ||| (v.b &&& v.d) ||| (v.c &&& v.d) else v.b ^^^ v.c ^^^ v.d) +
          v.e +
          (if t ≤ 19 then 0x5A827999#32 else if t ≤ 39 then 0x6ED9EBA1#32 else if t ≤ 59 then 0x8F1BBCDC#32
            else 0xCA62C1D6#32) + unrolledWord abcBlock t
        b := v.a, c := v.b.rotateLeft 30, d := v.c, e := v.d }) ∧
    ([] : List Byte).length % 64 = 0 :=
  ⟨by decide, by decide +kernel, by decide +kernel, rfl, fun _ _ => rfl, rfl⟩

theorem witness_HmacLongKeyReduction : 64 < (zeros 65).length := by decide

theorem witness_TruncationWindow : (zeros 20).length = 20 := by decide

theorem witness_RenderIsDecimal : 999999 < 10 ^ 6 ∧ 0 < 10 ^ 0 := by decide

/-- T14: the widest difference, 2^63-1 against -2^63. -/
theorem witness_TotpCounterIsFloor :
    ({ ArgRegs.reset with timeLo := 0xFFFFFFFF#32, timeHi := 0x7FFFFFFF#32, t0Hi := 0x80000000#32, step := 1#32 } :
      ArgRegs).startOffset ≤
    ({ ArgRegs.reset with timeLo := 0xFFFFFFFF#32, timeHi := 0x7FFFFFFF#32, t0Hi := 0x80000000#32, step := 1#32 } :
      ArgRegs).now ∧
    ArgRegs.reset.step = 0#32 ∧ ({ ArgRegs.reset with step := 1#32 } : ArgRegs).step ≠ 0#32 := by decide

/-- The two ends of the first 30-second interval, now = 0 and now = 29. -/
theorem witness_TotpStability :
    State.reset.raced = false ∧
    ({ ArgRegs.reset with timeLo := 29#32 } : ArgRegs) =
      { ArgRegs.reset with
        timeLo := ({ ArgRegs.reset with timeLo := 29#32 } : ArgRegs).timeLo
        timeHi := ({ ArgRegs.reset with timeLo := 29#32 } : ArgRegs).timeHi } ∧
    ArgRegs.reset.startOffset + (0 : Nat) * ArgRegs.reset.effectiveStep ≤ ArgRegs.reset.now ∧
    ArgRegs.reset.now < ArgRegs.reset.startOffset + ((0 : Nat) + 1) * ArgRegs.reset.effectiveStep ∧
    ({ ArgRegs.reset with timeLo := 29#32 } : ArgRegs).startOffset +
      (0 : Nat) * ({ ArgRegs.reset with timeLo := 29#32 } : ArgRegs).effectiveStep ≤
      ({ ArgRegs.reset with timeLo := 29#32 } : ArgRegs).now ∧
    ({ ArgRegs.reset with timeLo := 29#32 } : ArgRegs).now <
      ({ ArgRegs.reset with timeLo := 29#32 } : ArgRegs).startOffset +
      ((0 : Nat) + 1) * ({ ArgRegs.reset with timeLo := 29#32 } : ArgRegs).effectiveStep := by decide

theorem witness_IgnoredParameters :
    (State.reset.accept 0x00060020#32).lcmd = some ⟨0x00060020#32, ArgRegs.reset⟩ ∧
    (State.reset.accept 0x00060020#32).raced = false := ⟨rfl, rfl⟩

/-- A context that holds nothing compressed and "abc" pending, and a readable message of 64 bytes. -/
theorem witness_StreamingCommandsRefineSha1 :
    (running 0x00000302#32 (msgArgs 0#32 64#32) abc ctxAbc).lcmd = some ⟨0x00000302#32, msgArgs 0#32 64#32⟩ ∧
    (running 0x00000302#32 (msgArgs 0#32 64#32) abc ctxAbc).raced = false ∧
    (3#4 : BitVec 4).toNat < (running 0x00000302#32 (msgArgs 0#32 64#32) abc ctxAbc).ctx.length ∧
    (running 0x00000302#32 (msgArgs 0#32 64#32) abc ctxAbc).ctx[(3#4 : BitVec 4).toNat]? = some ctxAbc ∧
    ctxAbc.Holds [] abc ∧
    memRead (running 0x00000302#32 (msgArgs 0#32 64#32) abc ctxAbc) (msgArgs 0#32 64#32).msgAddr
      (msgArgs 0#32 64#32).msgLen = .ok (abc ++ zeros 61) ∧
    (msgArgs 0#32 64#32).msgLen.toNat % 64 = 0 :=
  ⟨rfl, rfl, by decide, rfl, ⟨rfl, rfl, rfl, rfl, rfl, by decide⟩, rfl, rfl⟩

/-- A well-formed state that is not the reset state: a command executing, 63 bytes pending, a race marked. -/
theorem witness_StepKeepsWellFormed :
    (racing 0x00000302#32 (msgArgs 0#32 3#32) abc ctxFull).Wf ∧
    ∃ t, step (racing 0x00000302#32 (msgArgs 0#32 3#32) abc ctxFull) = .next t := ⟨by decide, _, rfl⟩

/-- A context with 64 bytes compressed. -/
theorem witness_LengthStaysWholeBlocks :
    (running 0x00000302#32 (msgArgs 0#32 3#32) abc { ctxAbc with lenLo := 64#32 }).raced = false ∧
    (∀ x ∈ (running 0x00000302#32 (msgArgs 0#32 3#32) abc { ctxAbc with lenLo := 64#32 }).ctx, x.LenWhole) ∧
    ∃ t, step (running 0x00000302#32 (msgArgs 0#32 3#32) abc { ctxAbc with lenLo := 64#32 }) = .next t :=
  ⟨rfl, by decide, _, rfl⟩

/-- From a raced state: a step that leaves the command executing, and the reset input. -/
theorem witness_LengthStaysWholeBlocks_raced :
    (∃ t, step { racing 0x00000302#32 (msgArgs 0#32 3#32) abc ctxAbc with
      script := [.bus .word (encodeBus true 0x0C#8 1#32)] } = .next t ∧ t.busy = true) ∧
    (∀ x ∈ (racing 0x00000302#32 (msgArgs 0#32 3#32) abc ctxAbc).ctx, x.LenWhole) ∧
    (∃ t, step { racing 0x00000302#32 (msgArgs 0#32 3#32) abc ctxAbc with script := [.reset] } = .next t) ∧
    ({ racing 0x00000302#32 (msgArgs 0#32 3#32) abc ctxAbc with script := [.reset] } : State).script = .reset :: [] ∧
    ({ State.reset with raced := true } : State).busy = false :=
  ⟨⟨_, rfl, rfl⟩, by decide, ⟨_, rfl⟩, rfl, rfl⟩

end Sys2Proof.Tests
end

section
/-! SUPPORT. Words: the bits and numbers of register values and of 64-bit pairs; the interrupt output. -/

namespace Sys2Proof.Machine

/-- A 64-bit pair as a number: `hi * 2^32 + lo` (10_state.md R44, 30_encoding.md R113). -/
theorem dword_toNat (hi lo : Word) : (dword hi lo).toNat = hi.toNat * 2 ^ 32 + lo.toNat := by
  have hhi : hi.toNat <<< 32 < 2 ^ 64 := by rw [Nat.shiftLeft_eq]; omega
  rw [← Nat.shiftLeft_eq, Nat.shiftLeft_add_eq_or_of_lt lo.isLt]
  simp only [dword, BitVec.toNat_or, BitVec.toNat_shiftLeft, BitVec.toNat_setWidth_of_le (show 32 ≤ 64 by decide),
    Nat.mod_eq_of_lt hhi]

/-- A flag placed at bit `n` is the only bit of its word. -/
theorem getLsbD_bitAt (b : Bool) (n k : Nat) (hn : n < 32) : (bitAt b n).getLsbD k = (b && decide (k = n)) := by
  simp only [bitAt, BitVec.getLsbD_shiftLeft, BitVec.getLsbD_setWidth, BitVec.getLsbD_ofBool]
  by_cases hk : k = n
  · subst hk; simp [hn]
  · simp [hk]; omega

/-- The bits of `STATUS` (10_state.md R38). -/
theorem getLsbD_statusWord (s : State) (k : Nat) :
    s.statusWord.getLsbD k = (s.busy && decide (k = 0) || s.done && decide (k = 1) || s.err && decide (k = 2) ||
      s.ovr && decide (k = 3)) := by
  simp [State.statusWord, getLsbD_bitAt]

/-- A narrow field shown in a register reads 0 above its width (10_state.md R54). -/
theorem getLsbD_setWidth_above {w : Nat} (x : BitVec w) {k : Nat} (h : w ≤ k) :
    (x.setWidth 32).getLsbD k = false := by
  simp [BitVec.getLsbD_of_ge x k h]

/-! ### The interrupt output -/

/-- The interrupt output, as a condition (10_state.md R55). -/
theorem irq_iff (s : State) : s.irq = true ↔ s.ie = true ∧ (s.done = true ∨ s.err = true) := by
  simp [State.irq]

theorem irq_of_enabled {s : State} (h : s.ie = true) : s.irq = (s.done || s.err) := by
  simp [State.irq, h]

theorem irq_low {s : State} (hd : s.done = false) (he : s.err = false) : s.irq = false := by
  simp [State.irq, hd, he]

end Sys2Proof.Machine
end

section
/-! SUPPORT. The register block by offset (10_state.md R36, R54; 40_host_interface.md R140, R141): which register an offset
names, what a transaction there does, and what each group of registers shows. -/

namespace Sys2Proof

/-- The argument registers (10_state.md R43 to R47). -/
def Reg.isArg : Reg → Bool
  | .msgAddr | .msgLen | .keyAddr | .keyLen | .cntLo | .cntHi | .timeLo | .timeHi | .t0Lo | .t0Hi | .step
  | .truncOff => true
  | _ => false

/-- The context view registers (10_state.md R53). -/
def Reg.isView : Reg → Bool
  | .viewH0 | .viewH1 | .viewH2 | .viewH3 | .viewH4 | .viewLenLo | .viewLenHi | .viewPlen | .viewState => true
  | _ => false

end Sys2Proof

namespace Sys2Proof.Machine

/-! ### The register an offset names -/

theorem alignedOffset_iff (offset : BitVec 8) : alignedOffset offset = true ↔ offset.toNat % 4 = 0 := by
  simp [alignedOffset, ← BitVec.toNat_inj]

theorem ofOffset_mem {offset : BitVec 8} {r : Reg} (h : Reg.ofOffset offset = some r) : (offset, r) ∈ regMap := by
  obtain ⟨⟨o, r'⟩, hfind, rfl⟩ := Option.map_eq_some_iff.mp h
  obtain rfl : o = offset := by simpa using List.find?_some hfind
  exact List.mem_of_find?_eq_some hfind

/-- No register stands at two offsets (R36). -/
theorem ofOffset_injective {o o' : BitVec 8} {r : Reg} (h : Reg.ofOffset o = some r) (h' : Reg.ofOffset o' = some r) :
    o = o' := by
  have hnodup : (regMap.map Prod.snd).Nodup := by decide
  exact congrArg Prod.fst (List.inj_on_of_nodup_map hnodup (ofOffset_mem h) (ofOffset_mem h') rfl)

/-- The aligned offsets 0x20..0x4C are those of the argument registers (R36). -/
theorem ofOffset_isArg : ∀ offset : BitVec 8, offset.toNat % 4 = 0 → 0x20 ≤ offset.toNat → offset.toNat ≤ 0x4C →
    (Reg.ofOffset offset).any Reg.isArg = true := by
  decide

/-- The offsets 0xA0..0xC0 are those of the view registers (R36). -/
theorem ofOffset_isView : ∀ offset ∈ [0xA0#8, 0xA4#8, 0xA8#8, 0xAC#8, 0xB0#8, 0xB4#8, 0xB8#8, 0xBC#8, 0xC0#8],
    offset.toNat % 4 = 0 ∧ (Reg.ofOffset offset).any Reg.isView = true := by
  decide

/-- The gaps of the register table name no register (R36, R54). -/
theorem ofOffset_reserved : ∀ offset : BitVec 8, offset.toNat % 4 = 0 →
    (0x18 ≤ offset.toNat ∧ offset.toNat ≤ 0x1C ∨ 0x54 ≤ offset.toNat ∧ offset.toNat ≤ 0x5C ∨
      0x74 ≤ offset.toNat ∧ offset.toNat ≤ 0x7C ∨ 0x98 ≤ offset.toNat ∧ offset.toNat ≤ 0x9C ∨
      0xC4 ≤ offset.toNat) → Reg.ofOffset offset = none := by
  decide

/-! ### Transactions -/

theorem regValue_reg {offset : BitVec 8} {r : Reg} (h : Reg.ofOffset offset = some r) (s : State) :
    s.regValue offset = s.readReg r := by
  simp [State.regValue, h]

theorem regValue_reserved {offset : BitVec 8} (h : Reg.ofOffset offset = none) (s : State) :
    s.regValue offset = 0#32 := by
  simp [State.regValue, h]

/-- States in which every register reads the same show the same value at every offset. -/
theorem regValue_congr {s t : State} (h : ∀ r, t.readReg r = s.readReg r) (offset : BitVec 8) :
    t.regValue offset = s.regValue offset := by
  cases hr : Reg.ofOffset offset with
  | none => rw [regValue_reserved hr, regValue_reserved hr]
  | some r => rw [regValue_reg hr, regValue_reg hr, h r]

theorem exec_regWrite_reg {offset : BitVec 8} {r : Reg} (ha : offset.toNat % 4 = 0) (hr : Reg.ofOffset offset = some r)
    (s : State) (data : Word) : exec (.regWrite offset data) s = .next (s.writeReg data r) := by
  simp [exec, execRegWrite, (alignedOffset_iff offset).mpr ha, State.writeOffset, hr]

theorem exec_regWrite_reserved {offset : BitVec 8} (ha : offset.toNat % 4 = 0) (hr : Reg.ofOffset offset = none)
    (s : State) (data : Word) : exec (.regWrite offset data) s = .next s := by
  simp [exec, execRegWrite, (alignedOffset_iff offset).mpr ha, State.writeOffset, hr]

/-- Everything a register write can do (R141). -/
theorem writeOffset_cases {offset : BitVec 8} {data : Word} {s t : State} (h : t = s.writeOffset offset data) :
    t = s ∨ t = s.accept data ∨ t = { s with ovr := true } ∨ t = s.clearStatus data ∨
    (∃ b, t = { s with ie := b }) ∨ (∃ c, t = { s with ctxSel := c }) ∨ ∃ a, t = { s with args := a } := by
  subst h
  unfold State.writeOffset
  cases Reg.ofOffset offset with
  | none => exact .inl rfl
  | some r =>
    cases r with
    | cmd =>
      simp only [State.writeReg]
      split
      · exact .inr (.inr (.inl rfl))
      · exact .inr (.inl rfl)
    | status => exact .inr (.inr (.inr (.inl rfl)))
    | ctrl => exact .inr (.inr (.inr (.inr (.inl ⟨_, rfl⟩))))
    | ctxSel => exact .inr (.inr (.inr (.inr (.inr (.inl ⟨_, rfl⟩)))))
    | msgAddr | msgLen | keyAddr | keyLen | cntLo | cntHi | timeLo | timeHi | t0Lo | t0Hi | step | truncOff =>
      exact .inr (.inr (.inr (.inr (.inr (.inr ⟨_, rfl⟩)))))
    | _ => exact .inl rfl

/-- No register write changes a context (R90). -/
theorem writeOffset_ctx (offset : BitVec 8) (data : Word) (s : State) : (s.writeOffset offset data).ctx = s.ctx := by
  rcases writeOffset_cases (s := s) (offset := offset) (data := data) rfl with
    h | h | h | h | ⟨_, h⟩ | ⟨_, h⟩ | ⟨_, h⟩ <;> rw [h] <;> rfl

/-! ### The argument registers -/

/-- An argument register's write changes the argument registers alone (R141). -/
theorem writeReg_arg {r : Reg} (h : r.isArg = true) (s : State) (data : Word) :
    ∃ a, s.writeReg data r = { s with args := a } := by
  cases r <;> cases h <;> exact ⟨_, rfl⟩

theorem readReg_writeReg_same {r : Reg} (h : r.isArg = true) (s : State) (data : Word) :
    (s.writeReg data r).readReg r = data := by
  cases r <;> cases h <;> rfl

theorem readReg_writeReg_other {r r' : Reg} (h : r.isArg = true) (hne : r' ≠ r) (s : State) (data : Word) :
    (s.writeReg data r).readReg r' = s.readReg r' := by
  cases r <;> cases h <;> cases r' <;> first | rfl | exact absurd rfl hne

/-! ### The views -/

theorem writeReg_view {r : Reg} (h : r.isView = true) (s : State) (data : Word) : s.writeReg data r = s := by
  cases r <;> cases h <;> rfl

/-- A view register shows the context selected and nothing else of the state (R53). -/
theorem readReg_view_congr {r : Reg} (h : r.isView = true) {s t : State} (hv : t.viewCtx = s.viewCtx) :
    t.readReg r = s.readReg r := by
  cases r <;> cases h <;> simp only [State.readReg, State.view, hv]

/-- A view register shows how many bytes are pending, not which (R53). -/
theorem readReg_view_pending {r : Reg} (h : r.isView = true) {s t : State} {x : HashContext} {b : List Byte}
    (hs : s.viewCtx = some x) (ht : t.viewCtx = some { x with buf := b }) (hb : b.length = x.buf.length) :
    t.readReg r = s.readReg r := by
  cases r <;> cases h <;> simp only [State.readReg, State.view, hs, ht, hb]

/-- Every other register shows at most the number of contexts (R42). -/
theorem readReg_ctx_of_not_view {r : Reg} (h : r.isView = false) (s : State) {cs : List HashContext}
    (hl : cs.length = s.ctx.length) : ({ s with ctx := cs } : State).readReg r = s.readReg r := by
  cases r with
  | caps => simp only [State.readReg, hl]
  | _ => cases h <;> rfl

theorem view_some {s : State} {x : HashContext} (h : s.viewCtx = some x) (f : HashContext → Word) :
    s.view f = f x := by
  simp [State.view, h]

theorem view_none {s : State} (h : s.viewCtx = none) (f : HashContext → Word) : s.view f = 0#32 := by
  simp [State.view, h]

/-- The context selected after one context was replaced. -/
theorem viewCtx_set {s : State} {c : Nat} {x : HashContext} (hx : s.ctx[c]? = some x) (y : HashContext) :
    ({ s with ctx := s.ctx.set c y } : State).viewCtx = if c = s.ctxSel.toNat then some y else s.viewCtx := by
  obtain ⟨hc, -⟩ := List.getElem?_eq_some_iff.mp hx
  simp [State.viewCtx, List.getElem?_set, hc]

/-- Pending bytes replaced by as many others do not show in any register (R53). -/
theorem readReg_set_pending {s : State} {c : Nat} {x : HashContext} {b : List Byte} (hx : s.ctx[c]? = some x)
    (hb : b.length = x.buf.length) (r : Reg) :
    ({ s with ctx := s.ctx.set c { x with buf := b } } : State).readReg r = s.readReg r := by
  cases hr : r.isView with
  | false => exact readReg_ctx_of_not_view hr s (by simp)
  | true =>
    by_cases hc : c = s.ctxSel.toNat
    · have hs : s.viewCtx = some x := by rw [State.viewCtx, ← hc, hx]
      exact readReg_view_pending hr hs (by rw [viewCtx_set hx, if_pos hc]) hb
    · exact readReg_view_congr hr (by rw [viewCtx_set hx, if_neg hc])

end Sys2Proof.Machine
end

section
/-! SUPPORT. What a command's commit makes of the contexts and the result registers (40_host_interface.md R145, R147;
42_sha1_commands.md R200 to R211; 20_memory.md R93 item 3). -/

namespace Sys2Proof.Machine

/-! ### Contexts -/

theorem HashContext.lenWhole_iff (x : HashContext) : x.LenWhole ↔ x.lenLo.toNat % 64 = 0 := by
  simp only [HashContext.LenWhole, HashContext.len, dword_toNat]
  omega

theorem HashContext.absorbBlocks_lenWhole {x : HashContext} (hx : x.LenWhole) {m : List Byte}
    (hm : m.length % 64 = 0) : (x.absorbBlocks m).LenWhole := by
  rw [HashContext.lenWhole_iff] at hx ⊢
  simp only [HashContext.absorbBlocks, addLen, BitVec.toNat_ofNat]
  omega

/-- What a command that writes a context writes to it (R200, R202, R206, R211). -/
theorem execute_ctx {i : Instr} {a : ArgRegs} {s : State} {e : Effect} {c : BitVec 4} {x : HashContext}
    (h : executeOf i a s = .ok e) (hx : e.ctx = some (c, x)) :
    (i = .sha1Init c ∧ x = .fresh) ∨
    (∃ y m, i = .sha1Update c ∧ y ∈ s.ctx ∧ y.state = .active ∧ x = y.absorb m) ∨
    (∃ y m, i = .sha1Block c ∧ y ∈ s.ctx ∧ y.state = .active ∧ m.length % 64 = 0 ∧ x = y.absorbBlocks m) ∨
    (i = .sha1Finish c ∧ x = .spent) := by
  cases i with
  | regRead | regWrite => cases h
  | sha1Init c' =>
    simp only [executeOf, executeSha1Init] at h
    split at h <;> cases h
    cases hx
    exact .inl ⟨rfl, rfl⟩
  | sha1Update c' =>
    simp only [executeOf, executeSha1Update] at h
    split at h
    · rename_i y hy
      obtain ⟨hmem, hact⟩ := lookupActive_ok.mp hy
      split at h <;> cases h
      cases hx
      exact .inr (.inl ⟨y, _, rfl, List.mem_of_getElem? hmem, hact, rfl⟩)
    · cases h
  | sha1Block c' =>
    simp only [executeOf, executeSha1Block] at h
    split at h
    · rename_i y hy
      obtain ⟨hmem, hact⟩ := lookupActive_ok.mp hy
      split at h
      · rename_i hlen
        split at h <;> cases h
        rename_i m hm
        cases hx
        exact .inr (.inr (.inl ⟨y, m, rfl, List.mem_of_getElem? hmem, hact, by rw [memRead_length hm, hlen], rfl⟩))
      · cases h
    · cases h
  | sha1Finish c' =>
    simp only [executeOf, executeSha1Finish] at h
    split at h <;> cases h
    cases hx
    exact .inr (.inr (.inr ⟨rfl, rfl⟩))
  | hmacSha1 | hotpGen | totpGen =>
    have hshape := (execute_shape h).1
    simp [hx, Instr.ctxOf] at hshape

/-- The context a command writes keeps `LEN` in whole blocks (10_state.md R32 (b)). -/
theorem execute_ctx_lenWhole {i : Instr} {a : ArgRegs} {s : State} {e : Effect} {c : BitVec 4} {x : HashContext}
    (h : executeOf i a s = .ok e) (hx : e.ctx = some (c, x)) (hs : ∀ y ∈ s.ctx, y.LenWhole) : x.LenWhole := by
  rcases execute_ctx h hx with ⟨-, rfl⟩ | ⟨y, m, -, hy, -, rfl⟩ | ⟨y, m, -, hy, -, hm, rfl⟩ | ⟨-, rfl⟩
  · decide
  · exact HashContext.absorbBlocks_lenWhole (hs y hy) (wholeBlocks_length_mod _)
  · exact HashContext.absorbBlocks_lenWhole (hs y hy) hm
  · decide

/-- The context a command writes is within R32 (a) and (c). -/
theorem execute_ctx_wf {i : Instr} {a : ArgRegs} {s : State} {e : Effect} {c : BitVec 4} {x : HashContext}
    (h : executeOf i a s = .ok e) (hx : e.ctx = some (c, x)) (hs : ∀ y ∈ s.ctx, y.Wf) : x.Wf := by
  rcases execute_ctx h hx with ⟨-, rfl⟩ | ⟨y, m, -, -, hact, rfl⟩ | ⟨y, m, -, hy, hact, -, rfl⟩ | ⟨-, rfl⟩
  · decide
  · refine ⟨?_, fun hn => absurd hact hn⟩
    simp only [HashContext.absorb, tailBytes_length]
    omega
  · exact ⟨(hs y hy).1, fun hn => absurd hact hn⟩
  · decide

/-- A command that reads DMEM leaves the context it writes ACTIVE (R82, R202, R206). -/
theorem execute_ctx_active_of_reads {i : Instr} {a : ArgRegs} {s : State} {e : Effect} {c : BitVec 4} {x : HashContext}
    (h : executeOf i a s = .ok e) (hx : e.ctx = some (c, x)) (hr : readRanges i a ≠ []) : x.state = .active := by
  rcases execute_ctx h hx with ⟨rfl, -⟩ | ⟨y, m, -, -, hact, rfl⟩ | ⟨y, m, -, -, hact, -, rfl⟩ | ⟨rfl, -⟩
  · exact absurd rfl hr
  · exact hact
  · exact hact
  · exact absurd rfl hr

/-! ### Commit -/

/-- A context after a commit: one of before, or the one the command wrote, its values free when the command raced
(R93 item 3). -/
theorem mem_commitOk_ctx {e : Effect} {s : State} {x : HashContext} (h : x ∈ (s.commitOk e).ctx) :
    x ∈ s.ctx ∨ ∃ c y, e.ctx = some (c, y) ∧
      (s.raced = false ∧ x = y ∨ s.raced = true ∧ x.state = y.state ∧ x.buf.length < 64) := by
  cases he : e.ctx with
  | none => left; cases hr : s.raced <;> simpa [hr, he, Effect.freed] using h
  | some p =>
    obtain ⟨c, y⟩ := p
    cases hr : s.raced with
    | false =>
      simp only [State.commitOk_ctx, State.apply_ctx, hr, he, Bool.false_eq_true, if_false] at h
      exact (List.mem_or_eq_of_mem_set h).imp_right fun hx => ⟨c, y, rfl, .inl ⟨rfl, hx⟩⟩
    | true =>
      simp only [State.commitOk_ctx, State.apply_ctx, hr, he, if_true, Effect.freed, Option.map_some] at h
      refine (List.mem_or_eq_of_mem_set h).imp_right fun hx => ⟨c, y, rfl, .inr ⟨rfl, ?_, ?_⟩⟩
      · rw [hx]
      · simp [hx]

theorem commit_ctx_length (r : Except ErrCode Effect) (s : State) : (s.commit r).ctx.length = s.ctx.length := by
  cases r with
  | error c => rfl
  | ok e =>
    simp only [State.commit_ok, State.commitOk_ctx, State.apply_ctx]
    split <;> simp

/-- The writes a commit applies, the command's own or the free ones, go where the command writes (R49 to R52, R93). -/
theorem commitOk_unwritten {i : Instr} {e : Effect} {s : State} (h : executeOf i a s = .ok e) :
    (i.writesDigest = false → (s.commitOk e).digest = s.digest) ∧
    (i.writesOtp = false → (s.commitOk e).otp = s.otp) ∧
    (i.writesTotpCnt = false → (s.commitOk e).totpCntLo = s.totpCntLo ∧ (s.commitOk e).totpCntHi = s.totpCntHi) := by
  obtain ⟨-, hd, ho, hc⟩ := execute_shape h
  refine ⟨fun hw => ?_, fun hw => ?_, fun hw => ?_⟩
  · have hnone : e.digest = none := by simpa [hw] using hd
    cases hr : s.raced <;> simp [hr, hnone, Effect.freed]
  · have hnone : e.otp = none := by simpa [hw] using ho
    cases hr : s.raced <;> simp [hr, hnone, Effect.freed]
  · have hnone : e.totpCnt = none := by simpa [hw] using hc
    cases hr : s.raced <;> simp [hr, hnone, Effect.freed]

end Sys2Proof.Machine
end

section
/-! SUPPORT. Every operation keeps the state well formed (00_scope.md R8, 10_state.md R32, R38; 20_memory.md R80), and what
a step can make of the contexts. -/

namespace Sys2Proof.Machine

/-! ### Well-formedness, operation by operation -/

theorem accept_wf {s : State} (h : s.Wf) (w : Word) : (s.accept w).Wf := by
  obtain ⟨hcfg, hlen, hctx, hmem, -⟩ := h
  exact ⟨hcfg, hlen, hctx, hmem, by simp [State.StatusWf]⟩

theorem clearStatus_wf {s : State} (h : s.Wf) (data : Word) : (s.clearStatus data).Wf := by
  obtain ⟨hcfg, hlen, hctx, hmem, hexcl, hbusy, hraced⟩ := h
  refine ⟨hcfg, hlen, hctx, hmem, fun hd => ?_, fun hb => ?_, hraced⟩
  · have hdone : s.done = true := (Bool.and_eq_true_iff.mp hd).1
    simp [hexcl hdone]
  · obtain ⟨hdone, herr⟩ := hbusy hb
    simp [hdone, herr]

theorem writeOffset_wf {s : State} (h : s.Wf) (offset : BitVec 8) (data : Word) : (s.writeOffset offset data).Wf := by
  rcases writeOffset_cases (s := s) (offset := offset) (data := data) rfl with
    ht | ht | ht | ht | ⟨_, ht⟩ | ⟨_, ht⟩ | ⟨_, ht⟩ <;> rw [ht]
  · exact h
  · exact accept_wf h data
  · exact h
  · exact clearStatus_wf h data
  all_goals exact h

theorem hostDmemWrite_wf {s t : State} {addr : Word} {bytes : List Byte} (h : s.Wf)
    (ht : hostDmemWrite addr bytes s = .next t) : t.Wf := by
  obtain ⟨hfit, r, rfl, hr⟩ := hostDmemWrite_next ht
  obtain ⟨hcfg, hlen, hctx, ⟨hcanon, hin⟩, hexcl, hbusy, hraced⟩ := h
  refine ⟨hcfg, hlen, hctx, ⟨Memory.write_wf _ hcanon _ _, fun c hc => ?_⟩, hexcl, hbusy, fun h' => ?_⟩
  · rcases Memory.mem_write _ _ _ _ hc with hnew | hold
    · have hne : bytes ≠ [] := by rintro rfl; simp at hnew; omega
      have hfit := hfit.resolve_left hne
      simp only
      omega
    · exact hin c hold
  · exact (hr h').elim hraced id

theorem resetInput_wf {s : State} (h : s.Wf) : s.resetInput.Wf := by
  obtain ⟨hcfg, hlen, -, hmem, -⟩ := h
  refine ⟨hcfg, by simpa using hlen, fun x hx => ?_, hmem, by simp [State.StatusWf, State.busy]⟩
  rw [List.eq_of_mem_replicate hx]
  decide

theorem raiseError_wf {s : State} (h : s.Wf) (hb : s.busy = true) (c : ErrCode) : (s.raiseError c).Wf := by
  obtain ⟨hcfg, hlen, hctx, hmem, -, hbusy, -⟩ := h
  exact ⟨hcfg, hlen, hctx, hmem, by simp [State.StatusWf, State.busy, (hbusy hb).1]⟩

/-- A success leaves contexts within R32 (a) and (c): a raced command reads DMEM, so what it frees is an ACTIVE
context. -/
theorem commitOk_ctx_wf {s : State} (h : s.Wf) {l : Lcmd} (hl : s.lcmd = some l) {i : Instr}
    (hd : decodeCmd l.word = .ok i) {e : Effect} (he : executeOf i l.args s = .ok e) :
    ∀ x ∈ (s.commitOk e).ctx, x.Wf := by
  obtain ⟨-, -, hctx, -, -, -, hraced⟩ := h
  intro x hx
  rcases mem_commitOk_ctx hx with hold | ⟨c, y, hy, ⟨-, rfl⟩ | ⟨hr, hstate, hbuf⟩⟩
  · exact hctx x hold
  · exact execute_ctx_wf he hy hctx
  · have hreads : readRanges i l.args ≠ [] := by
      simpa [State.commandReads, hl, Lcmd.ranges, hd] using hraced hr
    have hactive : x.state = .active := hstate.trans (execute_ctx_active_of_reads he hy hreads)
    exact ⟨hbuf, fun hn => absurd hactive hn⟩

theorem commitOk_wf {s : State} (h : s.Wf) {l : Lcmd} (hl : s.lcmd = some l) {i : Instr}
    (hd : decodeCmd l.word = .ok i) {e : Effect} (he : executeOf i l.args s = .ok e) : (s.commitOk e).Wf := by
  have hctx := commitOk_ctx_wf h hl hd he
  obtain ⟨hcfg, hlen, -, hmem, -, hbusy, -⟩ := h
  have herr : s.err = false := (hbusy (by simp [State.busy, hl])).2
  refine ⟨hcfg, ?_, hctx, hmem, by simp [State.StatusWf, State.busy, herr]⟩
  rwa [← State.commit_ok, commit_ctx_length]

theorem engineTurn_wf {s t : State} (h : s.Wf) (ht : engineTurn s = .next t) : t.Wf := by
  rcases engineTurn_next ht with ⟨-, rfl⟩ | ⟨l, hl, ⟨i, hd, rfl⟩ | ⟨-, rfl⟩⟩
  · exact h
  · cases he : executeOf i l.args s with
    | ok e => exact commitOk_wf h hl hd he
    | error c => exact raiseError_wf h (by simp [State.busy, hl]) c
  · exact raiseError_wf h (by simp [State.busy, hl]) _

/-! ### The contexts after a step -/

/-- What a step can make of the contexts (40_host_interface.md R142, R147; 70_reset_and_hazards.md R310): it leaves them,
or the reset input clears them, or a command that was executing commits to them; after the last two none is executing. -/
theorem step_ctx {s t : State} (h : step s = .next t) :
    t.ctx = s.ctx ∨
    (t.busy = false ∧ (∃ rest, s.script = .reset :: rest) ∧ t.ctx = List.replicate s.ctx.length HashContext.reset) ∨
    (t.busy = false ∧ s.busy = true ∧ (∀ rest, s.script ≠ .reset :: rest) ∧
      ∃ i a e, executeOf i a s = .ok e ∧ t.ctx = (s.commitOk e).ctx) := by
  obtain ⟨rest, -, ⟨hturn, hscript⟩ | ⟨b, -, rfl⟩ | ⟨b, -, rfl⟩ | ⟨addr, bytes, -, hwrite⟩ | ⟨hscript, rfl⟩⟩ :=
    step_next h
  · rcases engineTurn_next hturn with ⟨-, rfl⟩ | ⟨l, hl, ⟨i, -, rfl⟩ | ⟨-, rfl⟩⟩
    · exact .inl rfl
    · cases he : executeOf i l.args { s with script := rest } with
      | error c => exact .inl rfl
      | ok e =>
        have hbusy : s.busy = true := by
          change s.lcmd = some l at hl
          simp [State.busy, hl]
        have hnoreset : ∀ rest', s.script ≠ .reset :: rest' := by
          rcases hscript with hs | hs <;> simp [hs]
        have hexec : executeOf i l.args s = .ok e := 
          (execute_congr (t := { s with script := rest }) (s := s) rfl rfl rfl i l.args).symm.trans he
        exact .inr (.inr ⟨rfl, hbusy, hnoreset, i, l.args, e, hexec, rfl⟩)
    · exact .inl rfl
  · exact .inl rfl
  · exact .inl (writeOffset_ctx _ _ _)
  · obtain ⟨-, r, rfl, -⟩ := hostDmemWrite_next hwrite
    exact .inl rfl
  · exact .inr (.inl ⟨rfl, ⟨rest, hscript⟩, rfl⟩)

end Sys2Proof.Machine
end

section
/-! The statements on the state and its registers (10_state.md), settled. -/

namespace Sys2Proof

open Sys2Proof.Machine

/-- Settles O59, operation by operation: a register write, a DMEM write, the reset input and the engine's turn each keep
`State.Wf`, and it does not speak of the script or the observations. -/
theorem stepKeepsWellFormed : Obligations.StepKeepsWellFormed := by
  unfold Obligations.StepKeepsWellFormed
  intro s t hs h
  obtain ⟨rest, -, ⟨hturn, -⟩ | ⟨b, -, rfl⟩ | ⟨b, -, rfl⟩ | ⟨addr, bytes, -, hwrite⟩ | ⟨-, rfl⟩⟩ := step_next h
  all_goals have hs₀ : ({ s with script := rest } : State).Wf := hs
  · exact engineTurn_wf hs₀ hturn
  · exact hs₀
  · exact writeOffset_wf hs₀ _ _
  · exact hostDmemWrite_wf hs₀ hwrite
  · exact resetInput_wf hs₀

/-- Settles O12: each register's offset read through the register map. -/
theorem registerValuesRead : Obligations.RegisterValuesRead := by
  unfold Obligations.RegisterValuesRead
  intro s
  have hstatus (k : Nat) : (s.regValue 0x04#8).getLsbD k = _ := getLsbD_statusWord s k
  refine ⟨rfl, ⟨?_, ?_, ?_, ?_, fun k hk => ?_⟩, ?_,
    ⟨rfl, rfl, rfl, rfl, rfl, rfl, rfl, rfl, rfl, rfl, rfl, rfl⟩, ?_, ⟨rfl, rfl, rfl, rfl, rfl⟩,
    ⟨rfl, rfl, rfl, rfl⟩, rfl, rfl⟩
  · rw [hstatus]; simp [State.busy]
  · rw [hstatus]; simp
  · rw [hstatus]; simp
  · rw [hstatus]; simp
  · rw [hstatus]; simp; omega
  · rw [regValue_reg (r := .errcode) rfl]
    cases hc : s.errcode <;> simp [State.readReg, hc, ErrCode.code]
  · exact BitVec.toNat_setWidth_of_le (by decide)

/-- Settles O16: the views are a function of the context selected, whose pending bytes they only count, and a step that
leaves a command executing is neither a commit nor a reset. -/
theorem contextViews : Obligations.ContextViews := by
  unfold Obligations.ContextViews
  refine ⟨fun s x hx hbuf => ?_, fun s hs => ?_, fun offset ho => ?_, fun s c x b offset hx hb => ?_,
    fun s t h hb => ?_⟩
  · have hview : s.viewCtx = some x := hx
    refine ⟨view_some hview _, view_some hview _, view_some hview _, view_some hview _, view_some hview _,
      view_some hview _, view_some hview _, ?_, ?_⟩
    · exact (view_some hview _).trans (BitVec.setWidth_ofNat_of_le_of_lt (by decide) (by omega))
    · rw [regValue_reg (r := .viewState) rfl]
      cases hstate : x.state <;> simp [State.readReg, hview, hstate, CtxState.code]
  · have hview : s.viewCtx = none := List.getElem?_eq_none hs
    refine ⟨?_, by rw [regValue_reg (r := .viewState) rfl]; simp [State.readReg, hview, viewStateNone]⟩
    simp only [List.forall_mem_cons]
    exact ⟨view_none hview _, view_none hview _, view_none hview _, view_none hview _, view_none hview _,
      view_none hview _, view_none hview _, view_none hview _, by simp⟩
  · obtain ⟨ha, hany⟩ := ofOffset_isView offset ho
    obtain ⟨r, hr, hview⟩ := (Option.any_eq_true _ _).mp hany
    refine ⟨fun s data => ?_, fun s l => ?_, ?_⟩
    · rw [exec_regWrite_reg ha hr, writeReg_view hview]
    · rw [regValue_reg hr, regValue_reg hr]
      exact readReg_view_congr hview rfl
    · rw [regValue_reg hr]
      cases r <;> cases hview <;> rfl
  · exact regValue_congr (readReg_set_pending hx hb) offset
  · rcases step_ctx h with hkept | ⟨hidle, -⟩ | ⟨hidle, -⟩
    · exact hkept
    · rw [hidle] at hb; cases hb
    · rw [hidle] at hb; cases hb

/-- Settles O17: the gaps name no register, each narrow register is a zero-extended field, and a write uses no bit but
those of its register's fields. -/
theorem reservedSpace : Obligations.ReservedSpace := by
  unfold Obligations.ReservedSpace
  refine ⟨fun s offset data ha hgap => ?_, fun s k => ⟨fun hk => ⟨?_, ?_, ?_⟩, fun hk => ?_, fun hk => ?_, fun hk => ?_,
    fun hk => ?_⟩, fun s data => ⟨?_, ?_, ?_⟩⟩
  · have hnone := ofOffset_reserved offset ha hgap
    exact ⟨regValue_reserved hnone s, exec_regWrite_reserved ha hnone s data⟩
  · rw [regValue_reg (r := .status) rfl, State.readReg, getLsbD_statusWord]; simp; omega
  · exact getLsbD_setWidth_above _ hk
  · exact getLsbD_setWidth_above _ hk
  · rw [regValue_reg (r := .ctrl) rfl, State.readReg, getLsbD_bitAt _ _ _ (by decide)]; simp; omega
  · exact getLsbD_setWidth_above _ hk
  · rw [regValue_reg (r := .viewPlen) rfl, State.readReg, State.view]
    split
    · exact getLsbD_setWidth_above _ hk
    · simp
  · rw [regValue_reg (r := .viewState) rfl, State.readReg]
    split
    · exact getLsbD_setWidth_above _ hk
    · exact getLsbD_setWidth_above 3#2 hk
  · rw [exec_regWrite_reg (r := .status) rfl rfl, exec_regWrite_reg (r := .status) rfl rfl]
    simp [State.writeReg, State.clearStatus]
  · rw [exec_regWrite_reg (r := .ctrl) rfl rfl, exec_regWrite_reg (r := .ctrl) rfl rfl]
    simp [State.writeReg]
  · rw [exec_regWrite_reg (r := .ctxSel) rfl rfl, exec_regWrite_reg (r := .ctxSel) rfl rfl]
    have hsel : (data &&& 0xF#32).extractLsb' 0 4 = data.extractLsb' 0 4 := by
      rw [BitVec.extractLsb'_and]; exact BitVec.and_allOnes
    simp only [State.writeReg, hsel]

/-- Settles O19: two offsets never name one register, so a write of an argument register shows at its own offset only. -/
theorem argumentRegistersStore : Obligations.ArgumentRegistersStore := by
  unfold Obligations.ArgumentRegistersStore
  intro s d offset ha hlo hhi
  obtain ⟨r, hr, harg⟩ := (Option.any_eq_true _ _).mp (ofOffset_isArg offset ha hlo hhi)
  refine ⟨s.writeReg d r, exec_regWrite_reg ha hr s d, ?_, ?_, fun other hother => ?_⟩
  · rw [regValue_reg hr, readReg_writeReg_same harg]
  · obtain ⟨a, ht⟩ := writeReg_arg harg s d
    rw [ht]
  · cases hr' : Reg.ofOffset other with
    | none => rw [regValue_reserved hr', regValue_reserved hr']
    | some r' =>
      have hne : r' ≠ r := by
        rintro rfl
        exact hother (ofOffset_injective hr' hr)
      rw [regValue_reg hr', regValue_reg hr', readReg_writeReg_other harg hne]

/-- Settles O23, from the bits each operation leaves in `STATUS`. -/
theorem interruptOutput : Obligations.InterruptOutput := by
  unfold Obligations.InterruptOutput
  intro s
  exact ⟨irq_iff s, fun e hie => (irq_iff _).mpr ⟨hie, .inl rfl⟩, fun c hie => (irq_iff _).mpr ⟨hie, .inr rfl⟩,
    fun w => irq_low rfl rfl, irq_low (by simp) (by simp), fun b => rfl⟩

/-- Settles O41: an error writes no result, and a success, raced or not, writes the registers of its command's shape. -/
theorem resultsOnlyFromTheirCommands : Obligations.ResultsOnlyFromTheirCommands := by
  unfold Obligations.ResultsOnlyFromTheirCommands
  intro s t i hi h
  rw [exec_command hi] at h
  obtain ⟨l, -, rfl⟩ := runCommand_next h
  cases he : executeOf i l.args s with
  | ok e => exact commitOk_unwritten he
  | error c => simp

/-- Settles O60: the reset input clears `LEN`, and an unraced commit adds whole blocks to it. -/
theorem lengthStaysWholeBlocks : Obligations.LengthStaysWholeBlocks := by
  unfold Obligations.LengthStaysWholeBlocks
  intro s t h hcase hs x hx
  rcases step_ctx h with hkept | ⟨-, -, hreset⟩ | ⟨hidle, hbusy, hnoreset, i, a, e, he, hcommit⟩
  · exact hs x (hkept ▸ hx)
  · rw [hreset] at hx
    rw [List.eq_of_mem_replicate hx]
    decide
  · have hraced : s.raced = false := by
      rcases hcase with hr | hb | hb | ⟨rest, hr⟩
      · exact hr
      · simp [hbusy] at hb
      · simp [hidle] at hb
      · exact absurd hr (hnoreset rest)
    rw [hcommit] at hx
    rcases mem_commitOk_ctx hx with hold | ⟨c, y, hy, ⟨-, rfl⟩ | ⟨hr, -⟩⟩
    · exact hs x hold
    · exact execute_ctx_lenWhole he hy hs
    · simp [hraced] at hr

/-- Settles O13: `ID` is a constant, and its write stores nothing. -/
theorem idHardwired : Obligations.IdHardwired := by
  unfold Obligations.IdHardwired
  exact fun s data => ⟨rfl, exec_regWrite_reg (r := .id) rfl rfl s data⟩

/-- Settles O14: up to 16 contexts fit the five bits of `NCTX`. -/
theorem capsHardwired : Obligations.CapsHardwired := by
  unfold Obligations.CapsHardwired
  intro s data _ hmax
  refine ⟨?_, fun k hk => getLsbD_setWidth_above _ hk, exec_regWrite_reg (r := .caps) rfl rfl s data⟩
  exact BitVec.setWidth_ofNat_of_le_of_lt (w := 5) (by decide) (by omega)

/-- Settles O15: `CTRL` is the one bit `IE`, which masks the interrupt output. -/
theorem ctrlRegister : Obligations.CtrlRegister := by
  unfold Obligations.CtrlRegister
  refine ⟨fun s data => ?_, rfl⟩
  have hctrl (k : Nat) : (s.regValue 0x0C#8).getLsbD k = (s.ie && decide (k = 0)) := getLsbD_bitAt s.ie 0 k (by decide)
  refine ⟨by rw [hctrl]; simp, fun k hk => ?_, exec_regWrite_reg (r := .ctrl) rfl rfl s data,
    fun hirq => ((irq_iff s).mp hirq).1, irq_of_enabled⟩
  rw [hctrl]; simp; omega

end Sys2Proof
end

section
/-! SUPPORT. DMEM (20_memory.md R80 to R84, R93): the read primitive by cases, the bytes a written string leaves, and when a
write meets the ranges of a command. -/

namespace Sys2Proof.Machine

/-! ### The read primitive, by cases -/

theorem memRead_empty (s : State) (a : Word) : memRead s a 0#32 = .ok [] := by
  simp [memRead]

theorem memRead_pastEnd {s : State} {a n : Word} (hn : n ≠ 0#32) (h : s.cfg.memSize < a.toNat + n.toNat) :
    memRead s a n = .error .hashFailure := by
  simp [memRead, hn, h]

theorem memRead_faulting {s : State} {a n : Word} (hn : n ≠ 0#32)
    (h : ∃ f ∈ s.cfg.dmemFault, a.toNat ≤ f ∧ f < a.toNat + n.toNat) : memRead s a n = .error .hashFailure := by
  have hany : s.cfg.dmemFault.any (fun f => decide (a.toNat ≤ f ∧ f < a.toNat + n.toNat)) = true := by
    simpa [List.any_eq_true] using h
  simp only [memRead, hn, hany, if_false, if_true, ite_self]

theorem memRead_readable {s : State} {a n : Word} (hn : n ≠ 0#32) (hend : a.toNat + n.toNat ≤ s.cfg.memSize)
    (hfault : ∀ f ∈ s.cfg.dmemFault, f < a.toNat ∨ a.toNat + n.toNat ≤ f) :
    memRead s a n = .ok (s.dmem.read a.toNat n.toNat) := by
  have hnone : s.cfg.dmemFault.any (fun f => decide (a.toNat ≤ f ∧ f < a.toNat + n.toNat)) = false := by
    simp only [List.any_eq_false, decide_eq_true_eq]
    intro f hf
    have := hfault f hf
    omega
  simp only [memRead, hn, hend.not_gt, hnone, if_false, Bool.false_eq_true]

/-! ### A written string -/

/-- Writing a string leaves every byte outside its range. -/
theorem Memory.get_write_outside {m : Memory} (hm : m.wf = true) {a x : Nat} {bytes : List Byte}
    (hx : x < a ∨ a + bytes.length ≤ x) : (m.write a bytes).get x = m.get x := by
  induction bytes generalizing m a with
  | nil => rfl
  | cons v rest ih =>
    simp only [List.length_cons] at hx
    rw [Memory.write, ih (Memory.set_wf m hm a v) (by omega), Memory.get_set m hm, if_neg (by omega)]

/-- Each byte of a written string reads back. -/
theorem Memory.get_write_inside {m : Memory} (hm : m.wf = true) {a i : Nat} {bytes : List Byte} {v : Byte}
    (hi : bytes[i]? = some v) : (m.write a bytes).get (a + i) = v := by
  induction bytes generalizing m a i with
  | nil => simp at hi
  | cons w rest ih =>
    have hset := Memory.set_wf m hm a w
    cases i with
    | zero =>
      obtain rfl : w = v := by simpa using hi
      rw [Nat.add_zero, Memory.write, Memory.get_write_outside hset (by omega), Memory.get_set m hm, if_pos rfl]
    | succ i =>
      rw [Memory.write, ← ih hset hi]
      congr 1
      omega

/-! ### Ranges that meet -/

/-- A write meets the ranges exactly when some byte of it lies in one of them. -/
theorem touches_iff (rs : List (Nat × Nat)) (addr n : Nat) :
    touches rs addr n = true ↔ ∃ a, addr ≤ a ∧ a < addr + n ∧ ∃ r ∈ rs, r.1 ≤ a ∧ a < r.1 + r.2 := by
  simp only [touches, List.any_eq_true, decide_eq_true_eq]
  constructor
  · rintro ⟨r, hr, hlt⟩
    exact ⟨max r.1 addr, by omega, by omega, r, hr, by omega, by omega⟩
  · rintro ⟨a, hlo, hhi, r, hr, hrlo, hrhi⟩
    exact ⟨r, hr, by omega⟩

theorem touches_empty (rs : List (Nat × Nat)) (addr : Nat) : touches rs addr 0 = false := by
  rw [Bool.eq_false_iff, ne_eq, touches_iff]
  rintro ⟨a, hlo, hhi, -⟩
  omega

theorem Lcmd.ranges_decoded {l : Lcmd} {i : Instr} (h : decodeCmd l.word = .ok i) : l.ranges = readRanges i l.args := by
  simp [Lcmd.ranges, h]

theorem Lcmd.ranges_illegal {l : Lcmd} {e : DecodeError} (h : decodeCmd l.word = .error e) : l.ranges = [] := by
  simp [Lcmd.ranges, h]

/-! ### The host's DMEM write -/

/-- Does a write of `n` bytes at `addr` meet a range of the executing command (R93 item 3)? -/
def State.racedBy (s : State) (addr n : Nat) : Bool := s.lcmd.any (fun l => touches l.ranges addr n)

theorem State.racedBy_latched {s : State} {l : Lcmd} (h : s.lcmd = some l) (addr n : Nat) :
    s.racedBy addr n = touches l.ranges addr n := by
  simp [State.racedBy, h]

theorem State.racedBy_empty (s : State) (addr : Nat) : s.racedBy addr 0 = false := by
  cases h : s.lcmd <;> simp [State.racedBy, h, touches_empty]

theorem hostDmemWrite_lands {addr : Word} {bytes : List Byte} {s : State}
    (h : bytes = [] ∨ addr.toNat + bytes.length ≤ s.cfg.memSize) :
    hostDmemWrite addr bytes s = .next { s with
      dmem := s.dmem.write addr.toNat bytes, raced := s.raced || s.racedBy addr.toNat bytes.length } := by
  rw [hostDmemWrite, if_pos h]
  cases hl : s.lcmd <;> simp [State.racedBy, hl]

theorem hostDmemWrite_pastEnd {addr : Word} {bytes : List Byte} {s : State} (hne : bytes ≠ [])
    (h : s.cfg.memSize < addr.toNat + bytes.length) : hostDmemWrite addr bytes s = .fault .dmemNoSuchAddress := by
  rw [hostDmemWrite, if_neg]
  rintro (hnil | hfit)
  · exact hne hnil
  · omega

end Sys2Proof.Machine
end

section
/-! SUPPORT. What a command leaves unchanged (40_host_interface.md R147; 20_memory.md R83, R94), what a raced one shares with
the unraced one (R93 item 3), and what a register write and a step leave of the rest (R83, R90). -/

namespace Sys2Proof.Machine

/-! ### A command as the commit of its `Execute` -/

theorem exec_command_latched {i : Instr} (hi : i.isCommand = true) {s : State} {l : Lcmd} (hl : s.lcmd = some l) :
    exec i s = .next (s.commit (executeOf i l.args s)) := by
  rw [exec_command hi, runCommand_latched hl]

theorem exec_command_next {i : Instr} (hi : i.isCommand = true) {s t : State} (h : exec i s = .next t) :
    ∃ l, s.lcmd = some l ∧ t = s.commit (executeOf i l.args s) :=
  runCommand_next (exec_command hi s ▸ h)

theorem exec_command_error {i : Instr} (hi : i.isCommand = true) {s : State} {l : Lcmd} {c : ErrCode}
    (hl : s.lcmd = some l) (h : executeOf i l.args s = .error c) : exec i s = failedWith c s := by
  rw [exec_command hi, runCommand_error hl h]

/-- Every field a commit can change (R147): contexts, result registers, the error code, DONE, ERR, the latched command and
the model's own race mark and draw counter. -/
theorem commit_writes (r : Except ErrCode Effect) (s : State) : s.commit r = { s with
    ctx := (s.commit r).ctx, digest := (s.commit r).digest, otp := (s.commit r).otp
    totpCntLo := (s.commit r).totpCntLo, totpCntHi := (s.commit r).totpCntHi
    errcode := (s.commit r).errcode, done := (s.commit r).done, err := (s.commit r).err
    lcmd := (s.commit r).lcmd, raced := (s.commit r).raced, draws := (s.commit r).draws } := by
  cases r <;> rfl

/-! ### The contexts a commit leaves -/

theorem apply_ctx_other {e : Effect} {s : State} {j : Nat} (h : ∀ c ∈ e.ctx.map Prod.fst, c.toNat ≠ j) :
    (s.apply e).ctx[j]? = s.ctx[j]? := by
  cases he : e.ctx with
  | none => simp [he]
  | some p =>
    have hne : p.1.toNat ≠ j := h p.1 (by simp [he])
    simp [he, List.getElem?_set_ne hne]

/-- A success, raced or not, changes no context but the one the command names (R93 item 3, R94). -/
theorem commitOk_ctx_other {i : Instr} {a : ArgRegs} {s : State} {e : Effect} {j : Nat}
    (he : executeOf i a s = .ok e) (hj : ∀ c, i.ctxOf = some c → c.toNat ≠ j) :
    (s.commitOk e).ctx[j]? = s.ctx[j]? := by
  have hctx : e.ctx.map Prod.fst = i.ctxOf := (execute_shape he).1
  rw [State.commitOk_ctx]
  refine apply_ctx_other fun c hc => hj c ?_
  cases hr : s.raced <;> simpa [hr, (Effect.freed_shape _ e).1, hctx] using hc

/-- Freeing the values of an effect keeps the lifecycle of the context it writes (R93 item 3). -/
theorem apply_freed_state (n : Nat) (e : Effect) (s : State) :
    (s.apply (e.freed n)).ctx.map HashContext.state = (s.apply e).ctx.map HashContext.state := by
  cases he : e.ctx <;> simp [Effect.freed, he, List.map_set]

/-! ### What a register write and a step leave -/

/-- Every field a register write can change (R90, R141). -/
theorem writeOffset_writes (offset : BitVec 8) (data : Word) (s : State) : s.writeOffset offset data = { s with
    cmd := (s.writeOffset offset data).cmd, lcmd := (s.writeOffset offset data).lcmd
    done := (s.writeOffset offset data).done, err := (s.writeOffset offset data).err
    ovr := (s.writeOffset offset data).ovr, ie := (s.writeOffset offset data).ie
    args := (s.writeOffset offset data).args, ctxSel := (s.writeOffset offset data).ctxSel
    raced := (s.writeOffset offset data).raced } := by
  rcases writeOffset_cases (s := s) (offset := offset) (data := data) rfl with
    h | h | h | h | ⟨_, h⟩ | ⟨_, h⟩ | ⟨_, h⟩ <;> rw [h] <;> rfl

theorem writeOffset_dmem (offset : BitVec 8) (data : Word) (s : State) : (s.writeOffset offset data).dmem = s.dmem := by
  rw [writeOffset_writes]

theorem engineTurn_dmem {s t : State} (h : engineTurn s = .next t) : t.dmem = s.dmem := by
  rcases engineTurn_next h with ⟨-, rfl⟩ | ⟨l, -, ⟨i, -, rfl⟩ | ⟨-, rfl⟩⟩
  · rfl
  · rw [commit_writes]
  · rfl

/-- Only the host's DMEM write changes DMEM (R83). -/
theorem step_dmem {s t : State} (h : step s = .next t) (hw : ∀ a b rest, s.script ≠ .dmemWrite a b :: rest) :
    t.dmem = s.dmem := by
  obtain ⟨rest, -, ⟨hturn, -⟩ | ⟨b, -, rfl⟩ | ⟨b, -, rfl⟩ | ⟨addr, bytes, hscript, -⟩ | ⟨-, rfl⟩⟩ := step_next h
  · exact engineTurn_dmem (s := { s with script := rest }) hturn
  · rfl
  · exact writeOffset_dmem _ _ _
  · exact absurd hscript (hw addr bytes rest)
  · rfl

/-! ### The host's access to the register space, by its alignment (R87) -/

theorem busTransaction_aligned {b : BitVec 41} (h : (busOffset b).toNat % 4 = 0) (s : State) :
    ∃ t, busTransaction .word b s = .next t := by
  have ha : alignedOffset (busOffset b) = true := (alignedOffset_iff _).mpr h
  simp only [busTransaction, decodeBus, ha, if_true]
  cases b.getLsbD 40 with
  | false => exact ⟨_, if_pos ha⟩
  | true => exact ⟨_, if_pos ha⟩

theorem busTransaction_misaligned {b : BitVec 41} (h : (busOffset b).toNat % 4 ≠ 0) (s : State) :
    busTransaction .word b s = .refused .busMisaligned := by
  have ha : ¬ alignedOffset (busOffset b) = true := fun ha => h ((alignedOffset_iff _).mp ha)
  simp [busTransaction, decodeBus, ha]

theorem busTransaction_narrow {size : BusSize} (h : size ≠ .word) (b : BitVec 41) (s : State) :
    busTransaction size b s = .refused .busWidth := by
  cases size with
  | word => exact absurd rfl h
  | byte | half => rfl

end Sys2Proof.Machine
end

section
/-! The statements on memory and the register space (20_memory.md), settled. -/

namespace Sys2Proof

open Sys2Proof.Machine

/-- Settles O46: `Execute` does not see the race mark, so both runs commit one result; an error commits no value, and a
success frees only what the command writes. -/
theorem racedCommandKeepsOutcome : Obligations.RacedCommandKeepsOutcome := by
  unfold Obligations.RacedCommandKeepsOutcome
  intro s l i hi hl hr
  have hsame : executeOf i l.args { s with raced := false } = executeOf i l.args s :=
    execute_congr (s := s) (t := { s with raced := false }) rfl rfl rfl i l.args
  refine ⟨_, _, exec_command_latched hi hl, exec_command_latched (s := { s with raced := false }) hi hl, ?_⟩
  rw [hsame]
  cases he : executeOf i l.args s with
  | error c => exact ⟨rfl, rfl, fun _ _ => rfl, fun _ => rfl, fun _ => rfl, fun _ => ⟨rfl, rfl⟩, fun _ => rfl⟩
  | ok e =>
    obtain ⟨hdigest, hotp, hcnt⟩ := commitOk_unwritten he
    obtain ⟨hdigest', hotp', hcnt'⟩ := commitOk_unwritten (hsame.trans he)
    refine ⟨rfl, ?_, fun j hj => ?_, fun hw => ?_, fun hw => ?_, fun hw => ?_, fun hfail => absurd rfl hfail⟩
    · rw [State.commit_ok, State.commitOk_ctx, hr]
      exact apply_freed_state s.draws e s
    · exact (commitOk_ctx_other he hj).trans (commitOk_ctx_other (hsame.trans he) hj).symm
    · exact (hdigest hw).trans (hdigest' hw).symm
    · exact (hotp hw).trans (hotp' hw).symm
    · exact ⟨(hcnt hw).1.trans (hcnt' hw).1.symm, (hcnt hw).2.trans (hcnt' hw).2.symm⟩

/-- Settles O7: the width is asked first, then the bus decoder asks the alignment. -/
theorem onlyAlignedWordAccesses : Obligations.OnlyAlignedWordAccesses := by
  unfold Obligations.OnlyAlignedWordAccesses
  intro s size b rest hs
  rw [step_entry hs]
  refine ⟨?_, ?_, fun hsize => busTransaction_narrow hsize b _⟩
  · rintro rfl ha
    exact busTransaction_aligned ha _
  · rintro rfl ha
    exact busTransaction_misaligned ha _

/-- Settles O20, from the fields a register write can change. -/
theorem regWriteFrame : Obligations.RegWriteFrame := by
  unfold Obligations.RegWriteFrame
  intro s t offset d h
  rcases execRegWrite_cases offset d s with hw | hw
  · obtain rfl : s.writeOffset offset d = t := by simpa [hw] using h
    rw [writeOffset_writes]
    exact ⟨rfl, rfl, rfl, rfl, rfl, rfl, fun _ => rfl, rfl, rfl, rfl, rfl⟩
  · simp [hw] at h

/-- Settles O36: with the checks before it passed, each `Execute` gives the cause of the failing read, which is
`HASH_FAILURE`. -/
theorem hashFailureReported : Obligations.HashFailureReported := by
  unfold Obligations.HashFailureReported
  intro s l c hl
  refine ⟨fun i x hx hact hread => ?_, fun hread => exec_command_error rfl hl ?_, fun d k hd hread => ?_⟩
  · have hctx : lookupActive s i = .ok x := lookupActive_ok.mpr ⟨hx, hact⟩
    obtain rfl := memRead_error hread
    refine ⟨exec_command_error rfl hl ?_, fun hlen => exec_command_error rfl hl ?_⟩
    · simp [executeOf, executeSha1Update, hctx, hread]
    · simp [executeOf, executeSha1Block, hctx, hlen, hread]
  · cases hkey : memRead s l.args.keyAddr l.args.keyLen with
    | error e => simp [executeOf, executeHmacSha1, hkey, memRead_error hkey]
    | ok key =>
      have hmsg : memRead s l.args.msgAddr l.args.msgLen = .error c := hread.resolve_left (by simp [hkey])
      simp [executeOf, executeHmacSha1, hkey, hmsg, memRead_error hmsg]
  · have hvalid : validDigits d = true := by simpa [validDigits, or_assoc] using hd
    obtain rfl := memRead_error hread
    refine ⟨exec_command_error rfl hl ?_, fun htime => exec_command_error rfl hl ?_⟩
    · simp [executeOf, executeHotpGen, hvalid, hread]
    · have hnow : ¬ l.args.now < l.args.startOffset := not_lt.mpr htime
      simp [executeOf, executeTotpGen, hvalid, hnow, hread]

/-- Settles O37, case by case of the read primitive. -/
theorem memReadByCases : Obligations.MemReadByCases := by
  unfold Obligations.MemReadByCases
  intro s a n
  refine ⟨?_, memRead_pastEnd, memRead_faulting, fun hn hend hfault =>
    ⟨_, memRead_readable hn hend hfault, Memory.read_length _ _ _, fun i hi => ?_⟩⟩
  · rintro rfl
    exact memRead_empty s a
  · rw [Memory.read_getElem?, if_pos hi]

/-- Settles O40: every command is a commit, and no commit changes what the host owns. -/
theorem commandsLeaveHostStateAlone : Obligations.CommandsLeaveHostStateAlone := by
  unfold Obligations.CommandsLeaveHostStateAlone
  intro s t i hi h
  obtain ⟨l, -, rfl⟩ := exec_command_next hi h
  obtain ⟨hcmd, hovr, hie, hargs, hsel, hdmem, hcfg, hscript, hobserved⟩ := commit_frame (executeOf i l.args s) s
  exact ⟨hcmd, hovr, hie, hargs, hsel, hcfg, hscript, hobserved, (commit_idle _ s).1, commit_ctx_length _ s,
    fun a => by rw [hdmem]⟩

/-- Settles O42: an error writes no context, and a success only the one the command names. -/
theorem otherContextsUntouched : Obligations.OtherContextsUntouched := by
  unfold Obligations.OtherContextsUntouched
  intro s t i j hi h hj
  obtain ⟨l, -, rfl⟩ := exec_command_next hi h
  cases he : executeOf i l.args s with
  | error c => rfl
  | ok e => exact commitOk_ctx_other he hj

/-- Settles O43: no step but the host's DMEM write changes DMEM, and a command is a commit. -/
theorem engineNeverWritesDmem : Obligations.EngineNeverWritesDmem := by
  unfold Obligations.EngineNeverWritesDmem
  refine ⟨fun s t hw h a => by rw [step_dmem h hw], fun s t i hi h => ?_⟩
  obtain ⟨l, -, rfl⟩ := exec_command_next hi h
  exact commit_writes _ s

/-- Settles O44: a string that is empty or fits is written byte after byte, any other faults. -/
theorem hostDmemWriteBytes : Obligations.HostDmemWriteBytes := by
  unfold Obligations.HostDmemWriteBytes
  intro s addr bytes rest hs hwf
  rw [step_entry hs, runEvent]
  refine ⟨?_, fun hfit => ?_, fun hne hpast => hostDmemWrite_pastEnd hne hpast⟩
  · rintro rfl
    rw [hostDmemWrite_lands (.inl rfl), List.length_nil, State.racedBy_empty, Bool.or_false, Memory.write]
  · exact ⟨_, hostDmemWrite_lands (.inr hfit), rfl, fun i v hi => Memory.get_write_inside hwf hi,
      fun a ha => Memory.get_write_outside hwf ha⟩

/-- Settles O45: the mark is set exactly when the write meets the ranges of the latched word, which are those of the table
of R82 for a command and none for an illegal word. -/
theorem raceMarkedExactly : Obligations.RaceMarkedExactly := by
  unfold Obligations.RaceMarkedExactly
  intro s t l addr bytes rest hs hl hr h
  have hmark : t.raced = touches l.ranges addr.toNat bytes.length := by
    rw [step_entry hs, runEvent] at h
    obtain ⟨hfit, -⟩ := hostDmemWrite_next h
    rw [hostDmemWrite_lands hfit] at h
    cases h
    simp only [hr, Bool.false_or]
    exact State.racedBy_latched (s := { s with script := rest }) hl _ _
  refine ⟨fun i hd => ?_, fun hd => ?_⟩
  · rw [hmark, Lcmd.ranges_decoded hd, touches_iff]
    cases i <;> simp [readRanges]
  · rw [hmark, Lcmd.ranges_illegal hd]
    rfl

end Sys2Proof
end

section
/-! SUPPORT. The encodings by their fields (30_encoding.md R111, R112, R114): a pattern is its fields, a row of the opcode
map asks for fields, and the map gives a word to the one row that selects it. Then the two steps of an illegal word
(40_host_interface.md R141, R146). -/

namespace Sys2Proof

/-! ### Patterns as their fields -/

theorem getLsbD_congr_of_extractLsb' {w start len : Nat} {u v : BitVec w}
    (h : u.extractLsb' start len = v.extractLsb' start len) {i : Nat} (hlo : start ≤ i) (hhi : i < start + len) :
    u.getLsbD i = v.getLsbD i := by
  have hbit := congrArg (fun x => x.getLsbD (i - start)) h
  simpa [show i - start < len by omega, show start + (i - start) = i by omega] using hbit

/-- A bus transaction is its direction, offset and data (R111). -/
theorem bus_eq_of_fields {u v : BitVec 41} (hrw : u.getLsbD 40 = v.getLsbD 40) (hoffset : busOffset u = busOffset v)
    (hdata : busData u = busData v) : u = v := by
  refine BitVec.eq_of_getLsbD_eq fun i hi => ?_
  rcases (by omega : i < 32 ∨ 32 ≤ i ∧ i < 40 ∨ i = 40) with h | ⟨hlo, hhi⟩ | rfl
  · exact getLsbD_congr_of_extractLsb' hdata (Nat.zero_le i) (by omega)
  · exact getLsbD_congr_of_extractLsb' hoffset hlo hhi
  · exact hrw

/-- A command word is its four fields and its two reserved fields (R112). -/
theorem word_eq_iff_fields (u v : Word) : u = v ↔
    u.extractLsb' 24 8 = v.extractLsb' 24 8 ∧ u.extractLsb' 13 3 = v.extractLsb' 13 3 ∧ opField u = opField v ∧
    ctxField u = ctxField v ∧ cksumField u = cksumField v ∧ digitsField u = digitsField v := by
  constructor
  · rintro rfl
    exact ⟨rfl, rfl, rfl, rfl, rfl, rfl⟩
  · rintro ⟨hhigh, hlow, hop, hctx, hcksum, hdigits⟩
    refine BitVec.eq_of_getLsbD_eq fun i hi => ?_
    rcases (by omega : i < 8 ∨ 8 ≤ i ∧ i < 12 ∨ i = 12 ∨ 13 ≤ i ∧ i < 16 ∨ 16 ≤ i ∧ i < 24 ∨ 24 ≤ i) with
      h | ⟨hlo, hhi⟩ | rfl | ⟨hlo, hhi⟩ | ⟨hlo, hhi⟩ | hlo
    · exact getLsbD_congr_of_extractLsb' hop (Nat.zero_le i) (by omega)
    · exact getLsbD_congr_of_extractLsb' hctx hlo hhi
    · exact hcksum
    · exact getLsbD_congr_of_extractLsb' hlow hlo hhi
    · exact getLsbD_congr_of_extractLsb' hdigits hlo hhi
    · exact getLsbD_congr_of_extractLsb' hhigh hlo hi

/-! ### The fields of an encoded command word (R112) -/

section
variable (op : BitVec 8) (ctx : BitVec 4) (cksum : Bool) (digits : BitVec 8)

/-- The bits of an encoded word: each field shifted to its place. -/
theorem getElem_encodeCmd {i : Nat} (hi : i < 32) : (encodeCmd op ctx cksum digits)[i] =
    (op.getLsbD i || !decide (i < 8) && ctx.getLsbD (i - 8) || decide (i = 12) && cksum ||
      !decide (i < 16) && digits.getLsbD (i - 16)) := by
  have hcksum : (!decide (i < 12) && (BitVec.ofBool cksum).getLsbD (i - 12)) = (decide (i = 12) && cksum) := by
    rcases lt_trichotomy i 12 with h | rfl | h
    · simp [h, h.ne]
    · simp
    · simp [h.ne', show i - 12 ≠ 0 by omega]
  simp only [encodeCmd, BitVec.getElem_or, BitVec.getElem_shiftLeft, BitVec.getElem_setWidth]
  simp [-BitVec.getLsbD_ofBool, hcksum]

@[simp] theorem opField_encodeCmd : opField (encodeCmd op ctx cksum digits) = op := by
  ext i hi
  simp [opField, getElem_encodeCmd, hi, show i < 32 by omega, show i < 16 by omega, show i ≠ 12 by omega]

@[simp] theorem ctxField_encodeCmd : ctxField (encodeCmd op ctx cksum digits) = ctx := by
  ext i hi
  simp [ctxField, getElem_encodeCmd, hi, show 8 + i < 32 by omega, show 8 + i < 16 by omega, show 8 + i ≠ 12 by omega]

@[simp] theorem cksumField_encodeCmd : cksumField (encodeCmd op ctx cksum digits) = cksum := by
  simp [cksumField, getElem_encodeCmd]

@[simp] theorem digitsField_encodeCmd : digitsField (encodeCmd op ctx cksum digits) = digits := by
  ext i hi
  simp [digitsField, getElem_encodeCmd, hi, show 16 + i < 32 by omega, show 16 + i ≠ 12 by omega,
    show 4 ≤ 16 + i - 8 by omega, BitVec.getLsbD_of_ge op (16 + i) (by omega)]

@[simp] theorem reservedHigh_encodeCmd : (encodeCmd op ctx cksum digits).extractLsb' 24 8 = 0#8 := by
  ext i hi
  simp [getElem_encodeCmd, show 24 + i < 32 by omega, show 24 + i ≠ 12 by omega, show 4 ≤ 24 + i - 8 by omega,
    show 8 ≤ 24 + i - 16 by omega, BitVec.getLsbD_of_ge op (24 + i) (by omega)]

@[simp] theorem reservedLow_encodeCmd : (encodeCmd op ctx cksum digits).extractLsb' 13 3 = 0#3 := by
  ext i hi
  simp [getElem_encodeCmd, show 13 + i < 32 by omega, show 13 + i ≠ 12 by omega, show 13 + i < 16 by omega,
    show 4 ≤ 13 + i - 8 by omega, BitVec.getLsbD_of_ge op (13 + i) (by omega)]

end

/-- A word with its reserved bits zero is encoded from its own fields. -/
theorem encodeCmd_fields {w : Word} (hhigh : w.extractLsb' 24 8 = 0#8) (hlow : w.extractLsb' 13 3 = 0#3) :
    encodeCmd (opField w) (ctxField w) (cksumField w) (digitsField w) = w := by
  simp [word_eq_iff_fields, hhigh, hlow]

theorem encodeBus_fields (b : BitVec 41) : encodeBus (b.getLsbD 40) (busOffset b) (busData b) = b :=
  bus_eq_of_fields (rw_encodeBus _ _ _) (busOffset_encodeBus _ _ _) (busData_encodeBus _ _ _)

/-! ### The opcode map by fields (R114) -/

/-- The `OP` of a command. -/
@[simp] def CmdOp.code : CmdOp → BitVec 8
  | .sha1Init => 0x01#8
  | .sha1Update => 0x02#8
  | .sha1Block => 0x03#8
  | .sha1Finish => 0x04#8
  | .hmacSha1 => 0x10#8
  | .hotpGen => 0x20#8
  | .totpGen => 0x21#8

/-- The fields a command does not use are zero in the word. -/
@[simp] def CmdOp.UnusedZero (w : Word) : CmdOp → Prop
  | .sha1Init | .sha1Update | .sha1Block | .sha1Finish => cksumField w = false ∧ digitsField w = 0#8
  | .hmacSha1 => ctxField w = 0#4 ∧ cksumField w = false ∧ digitsField w = 0#8
  | .hotpGen => ctxField w = 0#4
  | .totpGen => ctxField w = 0#4 ∧ cksumField w = false

/-- The word is one of the command's: reserved bits zero, the command's `OP`, unused fields zero. -/
def CmdOp.Fits (w : Word) (op : CmdOp) : Prop :=
  w.extractLsb' 24 8 = 0#8 ∧ w.extractLsb' 13 3 = 0#3 ∧ opField w = op.code ∧ op.UnusedZero w

/-- Every command has a row. -/
theorem exists_row (op : CmdOp) : ∃ r ∈ cmdRows, r.op = op := by
  cases op <;> simp [cmdRows]

/-- A row selects the words of its command: the mask and the pattern taken field by field. -/
theorem selects_iff_fits {r : CmdRow} (hr : r ∈ cmdRows) (w : Word) : r.selects w = true ↔ r.op.Fits w := by
  have hand3 (x : BitVec 3) : x &&& 7#3 = x := BitVec.and_allOnes
  have hand4 (x : BitVec 4) : x &&& 15#4 = x := BitVec.and_allOnes
  have hand8 (x : BitVec 8) : x &&& 255#8 = x := BitVec.and_allOnes
  rw [selects_iff, word_eq_iff_fields]
  simp only [cmdRows, List.mem_cons, List.not_mem_nil, or_false] at hr
  rcases hr with rfl | rfl | rfl | rfl | rfl | rfl | rfl <;>
    simp [CmdOp.Fits, opField, ctxField, cksumField, digitsField, BitVec.extractLsb'_and, hand3, hand4, hand8]

/-- The decoder gives a word to the command whose word it is. -/
theorem decodeCmd_eq_ok_iff {w : Word} {i : Instr} :
    decodeCmd w = .ok i ↔ ∃ op : CmdOp, op.Fits w ∧ op.build w = i := by
  unfold decodeCmd
  cases hfind : cmdRows.find? (fun r => r.selects w) with
  | none =>
    simp only [reduceCtorEq, false_iff]
    rintro ⟨op, hfits, -⟩
    obtain ⟨r, hr, rfl⟩ := exists_row op
    exact List.find?_eq_none.mp hfind r hr ((selects_iff_fits hr w).mpr hfits)
  | some r =>
    have hr : r ∈ cmdRows := List.mem_of_find?_eq_some hfind
    have hsel : r.selects w = true := by simpa using List.find?_some hfind
    have hfits : r.op.Fits w := (selects_iff_fits hr w).mp hsel
    constructor
    · rintro ⟨⟩
      exact ⟨r.op, hfits, rfl⟩
    · rintro ⟨op, hfits', rfl⟩
      obtain ⟨r', hr', rfl⟩ := exists_row op
      obtain ⟨-, -, hcode, -⟩ := hfits
      obtain ⟨-, -, hcode', -⟩ := hfits'
      have hnodup : (cmdRows.map (fun r => r.op.code)).Nodup := by decide
      rw [List.inj_on_of_nodup_map hnodup hr hr' (hcode.symm.trans hcode')]

/-- A word encoded for a command, its unused fields zero, decodes to what the command builds from it. -/
theorem decodeCmd_encodeCmd (op : CmdOp) {ctx : BitVec 4} {cksum : Bool} {digits : BitVec 8} {i : Instr}
    (hunused : op.UnusedZero (encodeCmd op.code ctx cksum digits))
    (hbuild : op.build (encodeCmd op.code ctx cksum digits) = i) :
    decodeCmd (encodeCmd op.code ctx cksum digits) = .ok i :=
  decodeCmd_eq_ok_iff.mpr ⟨op, ⟨by simp, by simp, by simp, hunused⟩, hbuild⟩

/-- What a command's word decodes to is encoded as that word. -/
theorem encode_build {op : CmdOp} {w : Word} (h : op.Fits w) : encode (op.build w) = .cmd w := by
  obtain ⟨hhigh, hlow, hop, hunused⟩ := h
  rw [← encodeCmd_fields hhigh hlow, hop]
  cases op <;> simp only [CmdOp.UnusedZero] at hunused <;> simp [encode, CmdOp.build, hunused]

theorem decodeBus_encodeBus (rw : Bool) {offset : BitVec 8} (h : alignedOffset offset = true) (data : Word) :
    decodeBus (encodeBus rw offset data) = .ok (if rw then .regWrite offset data else .regRead offset) := by
  rw [decodeBus, busOffset_encodeBus, busData_encodeBus, rw_encodeBus, if_pos h]
  cases rw <;> rfl

/-- What the host bus decodes to a write is that write's transaction. -/
theorem eq_encodeBus_of_decodeBus {b : BitVec 41} {offset : BitVec 8} {data : Word}
    (h : decodeBus b = .ok (.regWrite offset data)) : encodeBus true offset data = b := by
  unfold decodeBus at h
  split at h
  · split at h
    · rename_i hrw
      cases h
      rw [← hrw, encodeBus_fields]
    · cases h
  · cases h

end Sys2Proof

namespace Sys2Proof.Machine

theorem engineTurn_illegal {s : State} {l : Lcmd} (hl : s.lcmd = some l) {e : DecodeError}
    (he : decodeCmd l.word = .error e) : engineTurn s = .next (s.raiseError .illegalCmd) := by
  simp [engineTurn, hl, he]

/-- A write transaction in the script writes the register at its offset (R141). -/
theorem step_regWrite {s : State} {offset : BitVec 8} {data : Word} {rest : List Event} {r : Reg}
    (hs : s.script = .bus .word (encodeBus true offset data) :: rest) (ha : offset.toNat % 4 = 0)
    (hr : Reg.ofOffset offset = some r) : step s = .next (({ s with script := rest } : State).writeReg data r) := by
  rw [step_entry hs, runEvent]
  simp only [busTransaction, decodeBus_encodeBus true ((alignedOffset_iff offset).mpr ha), if_true,
    exec_regWrite_reg ha hr]

end Sys2Proof.Machine
end

section
/-! The statements on the encodings (30_encoding.md), settled. -/

namespace Sys2Proof

open Sys2Proof.Machine

/-- Settles O1: a transaction gives back its fields, and a command's word is one of the command's own, built from the fields
the encoder put there. -/
theorem decodeOfEncode : Obligations.DecodeOfEncode := by
  unfold Obligations.DecodeOfEncode
  intro i hwf
  cases i with
  | regRead offset => exact decodeBus_encodeBus false hwf 0#32
  | regWrite offset data => exact decodeBus_encodeBus true hwf data
  | sha1Init c => exact decodeCmd_encodeCmd .sha1Init (by simp) (by simp [CmdOp.build])
  | sha1Update c => exact decodeCmd_encodeCmd .sha1Update (by simp) (by simp [CmdOp.build])
  | sha1Block c => exact decodeCmd_encodeCmd .sha1Block (by simp) (by simp [CmdOp.build])
  | sha1Finish c => exact decodeCmd_encodeCmd .sha1Finish (by simp) (by simp [CmdOp.build])
  | hmacSha1 =>
    exact decodeCmd_encodeCmd .hmacSha1 (ctx := 0#4) (cksum := false) (digits := 0#8) (by simp) (by simp [CmdOp.build])
  | hotpGen d k => exact decodeCmd_encodeCmd .hotpGen (by simp) (by simp [CmdOp.build])
  | totpGen d => exact decodeCmd_encodeCmd .totpGen (by simp) (by simp [CmdOp.build])

/-- Settles O2: a command word is the encoding of what is built from it, a write transaction of its fields. -/
theorem acceptedPatternHasOneMeaning : Obligations.AcceptedPatternHasOneMeaning := by
  unfold Obligations.AcceptedPatternHasOneMeaning
  intro e i h hread
  cases e with
  | cmd w =>
    obtain ⟨op, hfits, rfl⟩ := decodeCmd_eq_ok_iff.mp h
    exact encode_build hfits
  | bus b =>
    rcases decodeBus_cases h with rfl | rfl
    · exact absurd rfl (hread _)
    · exact congrArg Encoding.bus (eq_encodeBus_of_decodeBus h)

/-- Settles O3: the words of the commands, command by command. -/
theorem commandWordLegalIff : Obligations.CommandWordLegalIff := by
  unfold Obligations.CommandWordLegalIff
  intro w
  have hlegal : (∃ i, decodeCmd w = .ok i) ↔ ∃ op : CmdOp, op.Fits w := by
    simp [decodeCmd_eq_ok_iff]
  rw [hlegal]
  constructor
  · rintro ⟨op, hhigh, hlow, hop, hunused⟩
    refine ⟨hhigh, hlow, ?_⟩
    cases op <;> simp only [CmdOp.code, CmdOp.UnusedZero] at hop hunused <;> simp [hop, hunused]
  · rintro ⟨hhigh, hlow, ⟨hop | hop | hop | hop, hunused⟩ | ⟨hop, hunused⟩ | ⟨hop, hunused⟩ | ⟨hop, hunused⟩⟩
    · exact ⟨.sha1Init, hhigh, hlow, hop, hunused⟩
    · exact ⟨.sha1Update, hhigh, hlow, hop, hunused⟩
    · exact ⟨.sha1Block, hhigh, hlow, hop, hunused⟩
    · exact ⟨.sha1Finish, hhigh, hlow, hop, hunused⟩
    · exact ⟨.hmacSha1, hhigh, hlow, hop, hunused⟩
    · exact ⟨.hotpGen, hhigh, hlow, hop, hunused⟩
    · exact ⟨.totpGen, hhigh, hlow, hop, hunused⟩

/-- Settles O8: the write is accepted, and the engine's turn finds no command in the latched word. -/
theorem illegalWordReported : Obligations.IllegalWordReported := by
  unfold Obligations.IllegalWordReported
  intro s w rest hidle hillegal hs
  refine ⟨({ s with script := .engine :: rest } : State).accept w, ?_, rfl, ?_⟩
  · rw [step_regWrite hs (by decide) (r := .cmd) (by decide)]
    simp [State.writeReg, State.busy, hidle]
  · rw [step_entry (State.accept_script w _), runEvent, engineTurn_illegal (l := ⟨w, s.args⟩) rfl hillegal]
    simp [State.raiseError, State.accept, hidle]

/-- Settles O4, word by word. -/
theorem listedWordsDecode : Obligations.ListedWordsDecode := by
  unfold Obligations.ListedWordsDecode
  decide

end Sys2Proof
end

section
/-! SUPPORT. The host interface (40_host_interface.md): which operation a turn or an access runs and where a placed one
stands (R140 to R145), a register write by its register (R141, R143, R144), and how a command ends (R146, R147, R151). -/

namespace Sys2Proof

/-- The registers a host write leaves alone: all but `CMD`, `STATUS`, `CTRL`, `CTX_SEL` and the argument registers (R36,
R141). -/
def Reg.isReadOnly : Reg → Bool
  | .cmd | .status | .ctrl | .ctxSel => false
  | r => !r.isArg

end Sys2Proof

namespace Sys2Proof.Machine

/-! ### The operation that runs -/

theorem engineTurn_decoded {s : State} {l : Lcmd} {i : Instr} (hl : s.lcmd = some l) (hd : decodeCmd l.word = .ok i) :
    engineTurn s = exec i s := by
  simp [engineTurn, hl, hd]

theorem engineTurn_idle {s : State} (h : s.lcmd = none) : engineTurn s = .next s := by
  simp [engineTurn, h]

theorem busTransaction_decoded {b : BitVec 41} {i : Instr} (h : decodeBus b = .ok i) (s : State) :
    busTransaction .word b s = exec i s := by
  simp [busTransaction, h]

/-- The engine has the turn when the script says so or is empty (log 8). -/
theorem step_engineTurn {s : State} (h : s.script = [] ∨ ∃ rest, s.script = .engine :: rest) :
    step s = engineTurn { s with script := s.script.tail } := by
  rcases h with hs | ⟨rest, hs⟩
  · have hsame : ({ s with script := s.script.tail } : State) = s := by rw [hs, List.tail_nil, ← hs]
    rw [hsame, step_engine hs]
  · rw [step_entry hs, hs]
    rfl

theorem withFetchWord_cmd (s : State) (w : Word) :
    s.withFetchWord 32 w.toNat = { s.accept w with script := .engine :: s.script } := by
  simp [State.withFetchWord, placeTableWord, placeEncoding]

theorem withFetchWord_bus (s : State) (b : BitVec 41) :
    s.withFetchWord 48 b.toNat = { s with script := .bus .word b :: s.script } := by
  simp [State.withFetchWord, placeTableWord, placeEncoding]

/-! ### Register transactions -/

theorem exec_regRead_aligned {offset : BitVec 8} (h : offset.toNat % 4 = 0) (s : State) :
    exec (.regRead offset) s = .next { s with observed := s.observed ++ [s.regValue offset] } := by
  simp [exec, execRegRead, (alignedOffset_iff offset).mpr h]

/-- An idle engine accepts the word written to `CMD` (R143). -/
theorem exec_regWrite_cmd_idle {s : State} (h : s.lcmd = none) (w : Word) :
    exec (.regWrite 0x00#8 w) s = .next (s.accept w) := by
  rw [exec_regWrite_reg (r := .cmd) rfl rfl]
  simp [State.writeReg, State.busy, h]

/-- A busy engine drops it and sets `OVR` (R144). -/
theorem exec_regWrite_cmd_busy {s : State} {l : Lcmd} (h : s.lcmd = some l) (w : Word) :
    exec (.regWrite 0x00#8 w) s = .next { s with ovr := true } := by
  rw [exec_regWrite_reg (r := .cmd) rfl rfl]
  simp [State.writeReg, State.busy, h]

/-- The write of `STATUS`, bit by bit: a 1 clears (R141). -/
theorem clearStatus_eq (d : Word) (s : State) : s.clearStatus d = { s with
    done := if d.getLsbD 1 then false else s.done
    err := if d.getLsbD 2 then false else s.err
    ovr := if d.getLsbD 3 then false else s.ovr } := by
  have hclear (b c : Bool) : (b && !c) = if c then false else b := by cases c <;> simp
  simp only [State.clearStatus, hclear]

/-- The register at an aligned offset outside 0x00, 0x04, 0x0C, 0x50 and 0x20..0x4C, if there is one, is read-only
(R36). -/
theorem ofOffset_isReadOnly : ∀ offset : BitVec 8, offset.toNat % 4 = 0 →
    offset ∉ [0x00#8, 0x04#8, 0x0C#8, 0x50#8] → ¬ (0x20 ≤ offset.toNat ∧ offset.toNat ≤ 0x4C) →
    (Reg.ofOffset offset).all Reg.isReadOnly = true := by
  decide

theorem writeReg_readOnly {r : Reg} (h : r.isReadOnly = true) (s : State) (data : Word) : s.writeReg data r = s := by
  cases r <;> cases h <;> rfl

/-! ### The end of a command -/

/-- The context check is the first of every streaming command (R146, R282). -/
theorem execute_badCtx {i : Instr} {c : BitVec 4} {s : State} (hi : i.ctxOf = some c) (h : s.ctx.length ≤ c.toNat)
    (a : ArgRegs) : executeOf i a s = .error .badCtx := by
  have hctx : lookupCtx s c = .error .badCtx := lookupCtx_bad h
  have hactive : lookupActive s c = .error .badCtx := by simp [lookupActive, hctx]
  cases i with
  | regRead | regWrite | hmacSha1 | hotpGen | totpGen => cases hi
  | sha1Init => cases hi; simp [executeOf, executeSha1Init, hctx]
  | sha1Update => cases hi; simp [executeOf, executeSha1Update, hactive]
  | sha1Block => cases hi; simp [executeOf, executeSha1Block, hactive]
  | sha1Finish => cases hi; simp [executeOf, executeSha1Finish, hactive]

/-- A commit neither reads nor writes the live argument registers (R143, R147). -/
theorem commit_args (r : Except ErrCode Effect) (s : State) (a : ArgRegs) :
    ({ s with args := a } : State).commit r = { s.commit r with args := a } := by
  cases r <;> rfl

/-- With a command latched, legal or not, the engine's turn is a success or error entry with a cause (R147, R148). -/
theorem engineTurn_latched {s : State} {l : Lcmd} (hl : s.lcmd = some l) :
    (∃ e, engineTurn s = .next (s.commitOk e)) ∨ ∃ c, c ≠ .none ∧ engineTurn s = .next (s.raiseError c) := by
  cases hd : decodeCmd l.word with
  | error e => exact .inr ⟨.illegalCmd, by decide, engineTurn_illegal hl hd⟩
  | ok i =>
    have hcommand : i.isCommand = true := decodeCmd_isCommand hd
    rw [engineTurn_decoded hl hd, exec_command_latched hcommand hl]
    cases he : executeOf i l.args s with
    | ok e => exact .inl ⟨e, rfl⟩
    | error c => exact .inr ⟨c, execute_error hcommand he, rfl⟩

/-- What only a command that succeeds, or the reset input, may change (R151): the result registers and the contexts. -/
def State.results (s : State) : Chain × OtpRegs × Word × Word × List HashContext :=
  (s.digest, s.otp, s.totpCntLo, s.totpCntHi, s.ctx)

theorem results_ne_iff (s t : State) : t.results ≠ s.results ↔
    t.digest ≠ s.digest ∨ t.otp ≠ s.otp ∨ t.totpCntLo ≠ s.totpCntLo ∨ t.totpCntHi ≠ s.totpCntHi ∨ t.ctx ≠ s.ctx := by
  simp only [State.results, ne_eq, Prod.mk.injEq, not_and_or]

theorem writeOffset_results (offset : BitVec 8) (data : Word) (s : State) :
    (s.writeOffset offset data).results = s.results := by
  rw [writeOffset_writes]
  rfl

/-- The engine's turn leaves the results, or completes the latched command without error. -/
theorem engineTurn_results {s t : State} (h : engineTurn s = .next t) :
    t.results = s.results ∨ s.busy = true ∧ t.busy = false ∧ t.done = true ∧ t.errcode = .none := by
  cases hl : s.lcmd with
  | none =>
    rw [engineTurn_idle hl] at h
    cases h
    exact .inl rfl
  | some l =>
    rcases engineTurn_latched hl with ⟨e, hok⟩ | ⟨c, -, herr⟩
    · rw [hok] at h
      cases h
      exact .inr ⟨by simp [State.busy, hl], rfl, rfl, rfl⟩
    · rw [herr] at h
      cases h
      exact .inl rfl

end Sys2Proof.Machine
end

section
/-! The statements on the host interface (40_host_interface.md), settled. -/

namespace Sys2Proof

open Sys2Proof.Machine

/-- Settles O18, register by register: the ones left are read-only or no register at all. -/
theorem regWriteByOffset : Obligations.RegWriteByOffset := by
  unfold Obligations.RegWriteByOffset
  intro s d
  have hstore (r : Reg) {offset : BitVec 8} (ha : offset.toNat % 4 = 0) (hr : Reg.ofOffset offset = some r) :
      exec (.regWrite offset d) s = .next (s.writeReg d r) := exec_regWrite_reg ha hr s d
  refine ⟨?_, ?_, hstore .ctrl rfl rfl, hstore .ctxSel rfl rfl, hstore .msgAddr rfl rfl, hstore .msgLen rfl rfl,
    hstore .keyAddr rfl rfl, hstore .keyLen rfl rfl, hstore .cntLo rfl rfl, hstore .cntHi rfl rfl,
    hstore .timeLo rfl rfl, hstore .timeHi rfl rfl, hstore .t0Lo rfl rfl, hstore .t0Hi rfl rfl, hstore .step rfl rfl,
    hstore .truncOff rfl rfl, fun offset ha hnamed harg => ?_⟩
  · split
    case isTrue hbusy =>
      obtain ⟨l, hl⟩ := Option.isSome_iff_exists.mp hbusy
      exact exec_regWrite_cmd_busy hl d
    case isFalse hidle => exact exec_regWrite_cmd_idle (Option.not_isSome_iff_eq_none.mp hidle) d
  · rw [← clearStatus_eq]
    exact hstore .status rfl rfl
  · have hall := ofOffset_isReadOnly offset ha hnamed harg
    cases hr : Reg.ofOffset offset with
    | none => exact exec_regWrite_reserved ha hr s d
    | some r =>
      have hro : r.isReadOnly = true := by simpa [hr] using hall
      rw [hstore r ha hr, writeReg_readOnly hro]

/-- Settles O21: a command is a commit of what `Execute` makes of the latched arguments, and neither reads the live ones. -/
theorem commandWriteLatchesOrIsDropped : Obligations.CommandWriteLatchesOrIsDropped := by
  unfold Obligations.CommandWriteLatchesOrIsDropped
  refine ⟨fun s w hidle => exec_regWrite_cmd_idle hidle w, fun s l w hl => exec_regWrite_cmd_busy hl w,
    fun s t a i hi _ h => ?_⟩
  obtain ⟨l, hl, rfl⟩ := exec_command_next hi h
  have hsame : executeOf i l.args { s with args := a } = executeOf i l.args s :=
    execute_congr (s := s) (t := { s with args := a }) rfl rfl rfl i l.args
  rw [exec_command_latched (s := { s with args := a }) hi hl, hsame, commit_args]

/-- Settles O39, from the two ends of the engine's turn. -/
theorem commandEndsOneOfTwoWays : Obligations.CommandEndsOneOfTwoWays := by
  unfold Obligations.CommandEndsOneOfTwoWays
  intro s l hl hdone herr hturn
  rw [step_engineTurn hturn]
  rcases engineTurn_latched (s := { s with script := s.script.tail }) hl with ⟨e, hok⟩ | ⟨c, hc, herror⟩
  · exact ⟨_, hok, rfl, .inl ⟨rfl, herr, rfl⟩⟩
  · exact ⟨_, herror, rfl, .inr ⟨hdone, rfl, hc, rfl⟩⟩

/-- Settles O47: of all a step can do, only the engine's turn and the reset input touch the results. -/
theorem resultsChangeOnlyAtCommit : Obligations.ResultsChangeOnlyAtCommit := by
  unfold Obligations.ResultsChangeOnlyAtCommit
  intro s t h hchanged
  have hne : t.results ≠ s.results := (results_ne_iff s t).mpr hchanged
  obtain ⟨rest, -, ⟨hturn, -⟩ | ⟨b, -, rfl⟩ | ⟨b, -, rfl⟩ | ⟨addr, bytes, -, hwrite⟩ | ⟨hreset, -⟩⟩ := step_next h
  · exact .inl ((engineTurn_results hturn).resolve_left hne)
  · exact absurd rfl hne
  · exact absurd (writeOffset_results _ _ _) hne
  · obtain ⟨-, r, rfl, -⟩ := hostDmemWrite_next hwrite
    exact absurd rfl hne
  · exact .inr ⟨rest, hreset⟩

/-- Settles O5: the step hands the entry to the engine or to the bus, and each runs what its decoder reads. -/
theorem stepRunsDecodedOperation : Obligations.StepRunsDecodedOperation := by
  unfold Obligations.StepRunsDecodedOperation
  refine ⟨fun s l i rest hs hl hd => ?_, fun s l i hs hl hd => ?_, fun s b i rest hs hd => ?_,
    fun s rest hs hl => ?_, fun s hs hl => ?_⟩
  · rw [step_entry hs]
    exact engineTurn_decoded hl hd
  · rw [step_engine hs, engineTurn_decoded hl hd]
  · rw [step_entry hs]
    exact busTransaction_decoded hd _
  · rw [step_entry hs]
    exact engineTurn_idle hl
  · rw [step_engine hs, engineTurn_idle hl]

/-- Settles O6: the placed operation's entry is the first of the script. -/
theorem placedOperationRunsNext : Obligations.PlacedOperationRunsNext := by
  unfold Obligations.PlacedOperationRunsNext
  refine ⟨fun s w i hd => ?_, fun s b i hd => ?_⟩
  · rw [withFetchWord_cmd, step_entry rfl]
    exact engineTurn_decoded (s := s.accept w) rfl hd
  · rw [withFetchWord_bus, step_entry rfl]
    exact busTransaction_decoded hd s

/-- Settles O11: an aligned read is never refused. -/
theorem regReadReturnsValue : Obligations.RegReadReturnsValue := by
  unfold Obligations.RegReadReturnsValue
  exact fun s offset ha => exec_regRead_aligned ha s

/-- Settles O31: each of the four commands names the index, and `Execute` asks for its context first. -/
theorem badContextReported : Obligations.BadContextReported := by
  unfold Obligations.BadContextReported
  intro s l c hl hbad
  have hfail {i : Instr} (hi : i.isCommand = true) (hc : i.ctxOf = some c) : exec i s = failedWith .badCtx s :=
    exec_command_error hi hl (execute_badCtx hc hbad l.args)
  simp only [List.forall_mem_cons]
  exact ⟨hfail rfl rfl, hfail rfl rfl, hfail rfl rfl, hfail rfl rfl, by simp⟩

end Sys2Proof
end


section
/-! SUPPORT. Byte order (00_scope.md R10, 20_memory.md R86) and the padding (41_sha1_compress.md R180) as numbers and
positions. -/

namespace Sys2Proof.Machine

/-! ### Byte order -/

/-- A byte placed above the bits of a word is added to it by `|||`. -/
theorem toNat_shiftLeft_or (b : Byte) {y : Word} {n : Nat} (hn : n ≤ 24) (hy : y.toNat < 2 ^ n) :
    (b.setWidth 32 <<< n ||| y).toNat = b.toNat * 2 ^ n + y.toNat := by
  have hb : b.toNat * 2 ^ n < 2 ^ 32 :=
    calc b.toNat * 2 ^ n ≤ b.toNat * 2 ^ 24 := Nat.mul_le_mul_left _ (Nat.pow_le_pow_right (by decide) hn)
      _ < 2 ^ 32 := by omega
  rw [BitVec.toNat_or, BitVec.toNat_shiftLeft, BitVec.toNat_setWidth_of_le (by decide), Nat.shiftLeft_eq,
    Nat.mod_eq_of_lt hb, ← Nat.shiftLeft_eq, Nat.shiftLeft_add_eq_or_of_lt hy]

/-- Four bytes side by side as a number, most significant first (R10). -/
theorem toNat_fourBytes (a b c d : Byte) :
    (a.setWidth 32 <<< 24 ||| b.setWidth 32 <<< 16 ||| c.setWidth 32 <<< 8 ||| d.setWidth 32 : Word).toNat =
      a.toNat * 2 ^ 24 + b.toNat * 2 ^ 16 + c.toNat * 2 ^ 8 + d.toNat := by
  have hd : (d.setWidth 32).toNat = d.toNat := BitVec.toNat_setWidth_of_le (by decide)
  have hc := toNat_shiftLeft_or c (n := 8) (by decide) (hd.trans_lt d.isLt)
  have hb := toNat_shiftLeft_or b (n := 16) (by decide) (hc.trans_lt (by omega))
  have ha := toNat_shiftLeft_or a (n := 24) (by decide) (hb.trans_lt (by omega))
  rw [BitVec.or_assoc, BitVec.or_assoc, ha, hb, hc, hd, ← Nat.add_assoc, ← Nat.add_assoc]

/-- `BE32` as a number: the first four bytes, most significant first (R10). -/
theorem be32_toNat (s : List Byte) : (be32 s).toNat =
    (s.getD 0 0#8).toNat * 2 ^ 24 + (s.getD 1 0#8).toNat * 2 ^ 16 + (s.getD 2 0#8).toNat * 2 ^ 8 +
      (s.getD 3 0#8).toNat :=
  toNat_fourBytes _ _ _ _

/-- `BE32` of the bytes from an offset on, as a number (R86). -/
theorem be32_drop_toNat (s : List Byte) (k : Nat) : (be32 (s.drop k)).toNat =
    (s.getD k 0#8).toNat * 2 ^ 24 + (s.getD (k + 1) 0#8).toNat * 2 ^ 16 + (s.getD (k + 2) 0#8).toNat * 2 ^ 8 +
      (s.getD (k + 3) 0#8).toNat := by
  simp [be32_toNat]

/-- The bytes of a word read back as the word (R10). -/
@[simp] theorem be32_be32bytes (w : Word) : be32 (be32bytes w) = w := by
  apply BitVec.eq_of_toNat_eq
  simp only [be32_toNat, be32bytes, List.getD_cons_zero, List.getD_cons_succ, BitVec.extractLsb'_toNat,
    Nat.shiftRight_eq_div_pow]
  omega

/-- Four bytes are the bytes of the word they read as (R10). -/
theorem be32bytes_be32 (a b c d : Byte) : be32bytes (be32 [a, b, c, d]) = [a, b, c, d] := by
  have hw : (be32 [a, b, c, d]).toNat = a.toNat * 2 ^ 24 + b.toNat * 2 ^ 16 + c.toNat * 2 ^ 8 + d.toNat :=
    be32_toNat _
  simp only [be32bytes, List.cons.injEq, and_true, ← BitVec.toNat_inj, BitVec.extractLsb'_toNat,
    Nat.shiftRight_eq_div_pow, hw]
  omega

/-- The eight bytes of a 64-bit value, read most significant first (R10). -/
theorem be64bytes_foldl (v : Dword) : (be64bytes v).foldl (fun n b => 256 * n + b.toNat) 0 = v.toNat := by
  simp only [be64bytes, List.foldl_cons, List.foldl_nil, BitVec.extractLsb'_toNat, Nat.shiftRight_eq_div_pow]
  omega

/-- `BE32` looks at four bytes (R10). -/
@[simp] theorem be32_take (s : List Byte) : be32 (s.take 4) = be32 s := by
  simp [be32]

/-- Word j of a digest is `BE32` of its four bytes (R49). -/
theorem Chain.ofBytes_eq (d : List Byte) : Chain.ofBytes d =
    ⟨be32 (d.take 4), be32 ((d.drop 4).take 4), be32 ((d.drop 8).take 4), be32 ((d.drop 12).take 4),
      be32 ((d.drop 16).take 4)⟩ := by
  simp only [be32_take, Chain.ofBytes]

/-! ### The padding -/

/-- The padded string is one block, or two (R180). -/
theorem pad_length {buf : List Byte} (h : buf.length < 64) (total : Dword) :
    (pad buf total).length = if buf.length ≤ 55 then 64 else 128 := by
  simp only [pad, List.length_append, List.length_singleton, zeros_length, be64bytes_length]
  split <;> omega

/-- The padded string begins with the pending bytes and the marker (R180). -/
theorem pad_take (buf : List Byte) (total : Dword) : (pad buf total).take (buf.length + 1) = buf ++ [0x80#8] := by
  rw [pad, List.append_assoc]
  exact List.take_left' (by simp)

/-- The last eight bytes of the padded string are the bit length (R180). -/
theorem pad_drop (buf : List Byte) (total : Dword) :
    (pad buf total).drop ((pad buf total).length - 8) = be64bytes (8#64 * total) :=
  List.drop_left' (by simp [pad]; omega)

/-- Between the marker and the bit length the padded string is 0 (R180). -/
theorem pad_getElem?_zero {buf : List Byte} {total : Dword} {i : Nat} (hlo : buf.length < i)
    (hhi : i + 8 < (pad buf total).length) : (pad buf total)[i]? = some 0#8 := by
  simp only [pad, List.length_append, List.length_singleton, zeros_length, be64bytes_length] at hhi
  rw [pad, List.getElem?_append_left (by simp; omega), List.getElem?_append_right (by simp; omega), zeros,
    List.getElem?_replicate, if_pos (by simp; omega)]

end Sys2Proof.Machine
end

section
/-! SUPPORT. The compression function round by round (41_sha1_compress.md R173 to R178): the ring of 16 words as a window
of the unrolled schedule, and the stage of a round by its range. -/

namespace Sys2Proof.Machine

/-! ### The schedule -/

/-- The ring before round t holds the words of an unrolled schedule: the block's 16 words at first, then the latest 16
before `w t`, each at its index modulo 16 (R175). -/
structure HoldsWindow (ring : List Word) (w : Nat → Word) (t : Nat) : Prop where
  length : ring.length = 16
  word : ∀ i, i < max t 16 → t ≤ i + 16 → ring[i % 16]? = some (w i)

/-- A word of the window, as the datapath reads it (R175). -/
theorem HoldsWindow.getD {ring : List Word} {w : Nat → Word} {t i : Nat} (h : HoldsWindow ring w t) (hi : i < max t 16)
    (ht : t ≤ i + 16) : ring.getD (i % 16) 0#32 = w i := by
  rw [List.getD_eq_getElem?_getD, h.word i hi ht, Option.getD_some]

/-- The ring the datapath starts with holds the block's words (R175). -/
theorem fillRing_holdsWindow {blk : List Byte} {w : Nat → Word} (hw : ∀ j, j < 16 → w j = be32 (blk.drop (4 * j))) :
    HoldsWindow (fillRing blk) w 0 where
  length := by simp [fillRing]
  word i hi _ := by
    have hi16 : i < 16 := by omega
    simp [fillRing, Nat.mod_eq_of_lt hi16, hi16, hw i hi16]

theorem scheduleRing_block (ring : List Word) {t : Nat} (h : t < 16) : scheduleRing ring t = ring := if_pos h

theorem scheduleRing_formed (ring : List Word) {t : Nat} (h : 16 ≤ t) : scheduleRing ring t =
    ring.set (t % 16) (rotl32 (ring.getD ((t - 3) % 16) 0#32 ^^^ ring.getD ((t - 8) % 16) 0#32 ^^^
      ring.getD ((t - 14) % 16) 0#32 ^^^ ring.getD ((t - 16) % 16) 0#32) 1) :=
  if_neg (Nat.not_lt.mpr h)

/-- Forming `W_t` in place moves the window on by one word (R175, R177). -/
theorem scheduleRing_holdsWindow {ring : List Word} {w : Nat → Word} {t : Nat} (h : HoldsWindow ring w t)
    (hw : 16 ≤ t → w t = (w (t - 3) ^^^ w (t - 8) ^^^ w (t - 14) ^^^ w (t - 16)).rotateLeft 1) :
    HoldsWindow (scheduleRing ring t) w (t + 1) where
  length := by rw [scheduleRing_length, h.length]
  word i hi hit := by
    rcases Nat.lt_or_ge t 16 with ht | ht
    · rw [scheduleRing_block ring ht]
      exact h.word i (by omega) (by omega)
    · rw [scheduleRing_formed ring ht]
      by_cases hlatest : i = t
      · have hpos : t % 16 < ring.length := by rw [h.length]; omega
        have hpast (k : Nat) (hk : 1 ≤ k ∧ k ≤ 16) : ring.getD ((t - k) % 16) 0#32 = w (t - k) :=
          h.getD (by omega) (by omega)
        rw [hlatest, List.getElem?_set_self hpos, hpast 3 (by decide), hpast 8 (by decide), hpast 14 (by decide),
          hpast 16 (by decide), rotl32_eq_rotateLeft _ 1 (by decide), hw ht]
      · have hne : t % 16 ≠ i % 16 := by omega
        rw [List.getElem?_set_ne hne]
        exact h.word i (by omega) (by omega)

/-! ### The rounds -/

/-- The stage of a round, by the ranges of R173 and R174 (R184). -/
theorem stage_cases (t : Nat) : t ≤ 19 ∧ t / 20 = 0 ∨ (¬t ≤ 19 ∧ t ≤ 39) ∧ t / 20 = 1 ∨
    (¬t ≤ 19 ∧ ¬t ≤ 39 ∧ t ≤ 59) ∧ t / 20 = 2 ∨ (¬t ≤ 19 ∧ ¬t ≤ 39 ∧ ¬t ≤ 59) ∧ ∃ k, t / 20 = k + 3 := by
  by_cases h19 : t ≤ 19
  · exact .inl ⟨h19, by omega⟩
  by_cases h39 : t ≤ 39
  · exact .inr (.inl ⟨⟨h19, h39⟩, by omega⟩)
  by_cases h59 : t ≤ 59
  · exact .inr (.inr (.inl ⟨⟨h19, h39, h59⟩, by omega⟩))
  · exact .inr (.inr (.inr ⟨⟨h19, h39, h59⟩, t / 20 - 3, by omega⟩))

/-- The round function by the ranges of t (R174). -/
theorem roundF_eq (t : Nat) (b c d : Word) : roundF t b c d =
    if t ≤ 19 then (b &&& c) ||| (~~~b &&& d)
    else if t ≤ 39 then b ^^^ c ^^^ d
    else if t ≤ 59 then (b &&& c) ||| (b &&& d) ||| (c &&& d)
    else b ^^^ c ^^^ d := by
  rcases stage_cases t with ⟨hr, hs⟩ | ⟨hr, hs⟩ | ⟨hr, hs⟩ | ⟨hr, k, hs⟩ <;>
    simp [roundF, hs, hr, choose, parity, majority]

/-- The round constant by the ranges of t (R173). -/
theorem roundK_eq (t : Nat) : roundK t =
    if t ≤ 19 then 0x5A827999#32 else if t ≤ 39 then 0x6ED9EBA1#32 else if t ≤ 59 then 0x8F1BBCDC#32
    else 0xCA62C1D6#32 := by
  rcases stage_cases t with ⟨hr, hs⟩ | ⟨hr, hs⟩ | ⟨hr, hs⟩ | ⟨hr, k, hs⟩ <;> simp [roundK, hs, hr]

/-- The datapath before round t of a run over the schedule `w` with the working variables `r` (R176, R183). -/
structure Datapath.AtRound (w : Nat → Word) (r : Nat → Work) (t : Nat) (p : Datapath) : Prop where
  index : p.t = t
  vars : p.v = r t
  window : HoldsWindow p.ring w t

/-- One datapath step is one round over the unrolled schedule (R177, R183). -/
theorem Datapath.AtRound.step {w : Nat → Word} {r : Nat → Work} {t : Nat} {p : Datapath} (h : p.AtRound w r t)
    (hw : 16 ≤ t → w t = (w (t - 3) ^^^ w (t - 8) ^^^ w (t - 14) ^^^ w (t - 16)).rotateLeft 1)
    (hr : r (t + 1) = sha1Round t (r t) (w t)) : p.step.AtRound w r (t + 1) := by
  obtain ⟨rfl, hvars, hwindow⟩ := h
  have hnext := scheduleRing_holdsWindow hwindow hw
  exact ⟨rfl, by rw [hr, Datapath.step, hnext.getD (by omega) (by omega), hvars], hnext⟩

/-- `n` datapath steps from the start are `n` rounds over the unrolled schedule (R176, R177). -/
theorem run_start_atRound {h : Chain} {blk : List Byte} {w : Nat → Word} {r : Nat → Work} {n : Nat}
    (hblk : ∀ j, j < 16 → w j = be32 (blk.drop (4 * j)))
    (hw : ∀ t, t < n → 16 ≤ t → w t = (w (t - 3) ^^^ w (t - 8) ^^^ w (t - 14) ^^^ w (t - 16)).rotateLeft 1)
    (hstart : r 0 = ⟨h.h0, h.h1, h.h2, h.h3, h.h4⟩) (hr : ∀ t, t < n → r (t + 1) = sha1Round t (r t) (w t)) :
    ((Datapath.start h blk).run n).AtRound w r n := by
  induction n with
  | zero => exact ⟨rfl, hstart.symm, fillRing_holdsWindow hblk⟩
  | succ n ih =>
    rw [Datapath.run_succ]
    exact (ih (fun t ht => hw t (by omega)) (fun t ht => hr t (by omega))).step (hw n (by omega)) (hr n (by omega))

/-- A leading block is compressed first (R179). -/
theorem compressAll_block (h : Chain) {blk : List Byte} (rest : List Byte) (hblk : blk.length = 64) :
    compressAll h (blk ++ rest) = compressAll (compress h blk) rest := by
  have hone : compressAll h blk = compress h blk := by
    simp [compressAll, compressBlocks, hblk, List.take_of_length_le hblk.le]
  rw [compressAll_append h blk rest (by omega), hone]

end Sys2Proof.Machine
end

section
/-! The statements on the compression function, the padding and the byte order (41_sha1_compress.md), settled. -/

namespace Sys2Proof

open Sys2Proof.Machine

/-- Settles O22: the ring is a window of the unrolled schedule, so each datapath step is a round over it; the rest is
the definitions of `CompressAll` and `SHA1` block by block. -/
theorem sha1FromRounds : Obligations.Sha1FromRounds := by
  unfold Obligations.Sha1FromRounds
  refine ⟨fun h blk w r _ hblk hw hstart hr => ?_, fun h blk rest =>
    ⟨compressAll_nil h, fun hblk _ => compressAll_block h rest hblk⟩, fun m c hc => ?_⟩
  · have hwords (j : Nat) (hj : j < 16) : w j = be32 (blk.drop (4 * j)) :=
      BitVec.eq_of_toNat_eq ((hblk j hj).trans (be32_drop_toNat blk _).symm)
    have hround (t : Nat) (ht : t < 80) : r (t + 1) = sha1Round t (r t) (w t) := by
      rw [hr t ht, sha1Round, roundF_eq, roundK_eq, rotl32_eq_rotateLeft _ 5 (by decide),
        rotl32_eq_rotateLeft _ 30 (by decide)]
    rw [compress, (run_start_atRound hwords hw hstart hround).vars, Chain.add]
  · rw [hc]
    rfl

/-- Settles O49: the padding by positions, the words and 64-bit values by their numbers. -/
theorem paddingAndByteOrder : Obligations.PaddingAndByteOrder := by
  unfold Obligations.PaddingAndByteOrder
  refine ⟨fun buf total hbuf => ⟨fun h => ?_, fun h => ?_, pad_take buf total, fun i => pad_getElem?_zero, ?_⟩,
    be32_toNat, fun w => ⟨be32bytes_length w, be32_be32bytes w⟩, be32bytes_be32,
    fun v => ⟨be64bytes_length v, be64bytes_foldl v⟩, fun d _ => Chain.ofBytes_eq d⟩
  · rw [pad_length hbuf, if_pos h]
  · rw [pad_length hbuf, if_neg (by omega)]
  · rw [pad_drop, be64bytes_foldl, BitVec.toNat_mul]
    rfl

end Sys2Proof
end

section
/-! SUPPORT. The length counter as 64-bit addition (42_sha1_commands.md R203), what becomes of a context that has
compressed `X` and holds `p` pending (R202 to R210), and `Execute` of the streaming commands case by case (R200 to R211,
R282). -/

namespace Sys2Proof.Machine

/-! ### The length counter -/

/-- The two halves `AddLen` answers are those of the sum modulo 2^64 (R203). -/
theorem dword_addLen (hi lo : Word) (n : Nat) :
    dword (addLen hi lo n).1 (addLen hi lo n).2 = dword hi lo + BitVec.ofNat 64 n := by
  apply BitVec.eq_of_toNat_eq
  simp only [dword_toNat, addLen, BitVec.toNat_add, BitVec.toNat_ofNat]
  omega

@[simp] theorem HashContext.absorbBlocks_len (x : HashContext) (m : List Byte) :
    (x.absorbBlocks m).len = x.len + BitVec.ofNat 64 m.length :=
  dword_addLen _ _ _

/-! ### What a context has absorbed -/

/-- An update field by field, `LEN` growing by the length of the whole blocks (R202). -/
theorem HashContext.absorb_eq (x : HashContext) (m : List Byte) : x.absorb m = {
    state := x.state
    h := compressAll x.h (wholeBlocks (x.buf ++ m))
    lenLo := (addLen x.lenHi x.lenLo (64 * ((x.buf ++ m).length / 64))).2
    lenHi := (addLen x.lenHi x.lenLo (64 * ((x.buf ++ m).length / 64))).1
    buf := tailBytes (x.buf ++ m) } := by
  simp only [absorb, absorbBlocks, wholeBlocks_length]

theorem wholeBlocks_short {p : List Byte} (h : p.length < 64) : wholeBlocks p = [] := by
  rw [← List.length_eq_zero_iff, wholeBlocks_length]
  omega

theorem tailBytes_short {p : List Byte} (h : p.length < 64) : tailBytes p = p := by
  simpa [wholeBlocks_short h] using wholeBlocks_append_tailBytes p

/-- The context of `SHA1_INIT` has absorbed nothing (R200). -/
theorem HashContext.fresh_holds : HashContext.fresh.Holds [] [] :=
  ⟨rfl, rfl, rfl, rfl, rfl, by decide⟩

theorem HashContext.Holds.active {x : HashContext} {X p : List Byte} (h : x.Holds X p) : x.state = .active := h.1

/-- Whole blocks compressed go behind what was compressed, ahead of the pending bytes (R207, R208). -/
theorem HashContext.Holds.absorbBlocks {x : HashContext} {X p m : List Byte} (h : x.Holds X p)
    (hm : m.length % 64 = 0) : (x.absorbBlocks m).Holds (X ++ m) p := by
  obtain ⟨hact, hX, hh, hlen, hbuf, hp⟩ := h
  refine ⟨hact, ?_, ?_, ?_, hbuf, hp⟩
  · rw [List.length_append]
    omega
  · rw [compressAll_append _ _ _ hX, ← hh]
    rfl
  · rw [absorbBlocks_len, hlen, List.length_append, BitVec.ofNat_add]

/-- An update compresses the whole blocks of the pending bytes and the message, and keeps the rest (R202). -/
theorem HashContext.Holds.absorb {x : HashContext} {X p : List Byte} (h : x.Holds X p) (m : List Byte) :
    (x.absorb m).Holds (X ++ wholeBlocks (p ++ m)) (tailBytes (p ++ m)) := by
  obtain ⟨hact, hX, hh, hlen, -, -⟩ := h.absorbBlocks (wholeBlocks_length_mod (p ++ m))
  obtain ⟨-, -, -, -, rfl, -⟩ := h
  refine ⟨hact, hX, hh, hlen, rfl, ?_⟩
  rw [tailBytes_length]
  omega

/-- An update appends its message to what the context has absorbed (R202, R204). -/
theorem HashContext.Holds.exists_absorb {x : HashContext} {X p : List Byte} (h : x.Holds X p) (m : List Byte) :
    ∃ X' p', X' ++ p' = X ++ p ++ m ∧ (x.absorb m).Holds X' p' :=
  ⟨_, _, by simp only [List.append_assoc, wholeBlocks_append_tailBytes], h.absorb m⟩

/-- Updates one after another append their messages (R204). -/
theorem HashContext.Holds.exists_foldl_absorb {x : HashContext} {X p : List Byte} (h : x.Holds X p)
    (pieces : List (List Byte)) :
    ∃ X' p', X' ++ p' = X ++ p ++ pieces.flatten ∧ (pieces.foldl HashContext.absorb x).Holds X' p' := by
  induction pieces generalizing x X p with
  | nil => exact ⟨X, p, by simp, h⟩
  | cons m rest ih =>
    obtain ⟨X₁, p₁, happ₁, h₁⟩ := h.exists_absorb m
    obtain ⟨X', p', happ, h'⟩ := ih h₁
    exact ⟨X', p', by simp only [happ, happ₁, List.flatten_cons, List.append_assoc], h'⟩

/-- Finishing gives the accumulators of the SHA-1 of everything absorbed: the compressed bytes are its whole blocks, the
pending ones its tail, and the total its length (R181, R209, R210). -/
theorem HashContext.Holds.finish_eq {x : HashContext} {X p : List Byte} (h : x.Holds X p) :
    x.finish = sha1Chain (X ++ p) := by
  obtain ⟨-, hX, hh, hlen, hbuf, hp⟩ := h
  have hwhole : wholeBlocks (X ++ p) = X := by rw [wholeBlocks_append _ _ hX, wholeBlocks_short hp, List.append_nil]
  have htail : tailBytes (X ++ p) = p := by rw [tailBytes_append _ _ hX, tailBytes_short hp]
  have htotal : x.total = BitVec.ofNat 64 (X ++ p).length := by
    rw [HashContext.total, hlen, hbuf, List.length_append, BitVec.ofNat_add]
  rw [HashContext.finish, hh, hbuf, htotal, sha1Chain, hwhole, htail]

/-! ### `Execute` of the streaming commands -/

section
variable {s : State} {c : BitVec 4} {x : HashContext} {m : List Byte}

/-- The check of R201 fails on a context that is not ACTIVE. -/
theorem lookupActive_inactive (hx : s.ctx[c.toNat]? = some x) (hs : x.state ≠ .active) :
    lookupActive s c = .error .ctxState := by
  simp [lookupActive, lookupCtx_ok hx, hs]

theorem execute_sha1Init (hx : s.ctx[c.toNat]? = some x) (a : ArgRegs) :
    executeOf (.sha1Init c) a s = .ok { ctx := some (c, HashContext.fresh) } := by
  simp [executeOf, executeSha1Init, lookupCtx_ok hx]

theorem execute_sha1Update {a : ArgRegs} (hx : s.ctx[c.toNat]? = some x) (hs : x.state = .active)
    (hm : memRead s a.msgAddr a.msgLen = .ok m) :
    executeOf (.sha1Update c) a s = .ok { ctx := some (c, x.absorb m) } := by
  simp [executeOf, executeSha1Update, lookupActive_ok.mpr ⟨hx, hs⟩, hm]

theorem execute_sha1Block {a : ArgRegs} (hx : s.ctx[c.toNat]? = some x) (hs : x.state = .active)
    (hlen : a.msgLen.toNat % 64 = 0) (hm : memRead s a.msgAddr a.msgLen = .ok m) :
    executeOf (.sha1Block c) a s = .ok { ctx := some (c, x.absorbBlocks m) } := by
  simp [executeOf, executeSha1Block, lookupActive_ok.mpr ⟨hx, hs⟩, hlen, hm]

/-- The length is checked before the range is read (R206, R282). -/
theorem execute_sha1Block_badLength {a : ArgRegs} (hx : s.ctx[c.toNat]? = some x) (hs : x.state = .active)
    (hlen : a.msgLen.toNat % 64 ≠ 0) : executeOf (.sha1Block c) a s = .error .blockLen := by
  simp [executeOf, executeSha1Block, lookupActive_ok.mpr ⟨hx, hs⟩, hlen]

theorem execute_sha1Finish (hx : s.ctx[c.toNat]? = some x) (hs : x.state = .active) (a : ArgRegs) :
    executeOf (.sha1Finish c) a s = .ok { ctx := some (c, HashContext.spent), digest := some x.finish } := by
  simp [executeOf, executeSha1Finish, lookupActive_ok.mpr ⟨hx, hs⟩]

/-- The three commands that need an ACTIVE context ask for it before anything else they check (R201). -/
theorem execute_inactive (hx : s.ctx[c.toNat]? = some x) (hs : x.state ≠ .active) (a : ArgRegs) :
    executeOf (.sha1Update c) a s = .error .ctxState ∧ executeOf (.sha1Block c) a s = .error .ctxState ∧
    executeOf (.sha1Finish c) a s = .error .ctxState := by
  simp [executeOf, executeSha1Update, executeSha1Block, executeSha1Finish, lookupActive_inactive hx hs]

end

/-! ### The state a command ends in -/

/-- A command that succeeds, the operands left alone: the state it commits (R147). -/
theorem exec_command_ok {i : Instr} (hi : i.isCommand = true) {s : State} {l : Lcmd} {e : Effect}
    (hl : s.lcmd = some l) (hr : s.raced = false) (he : executeOf i l.args s = .ok e) :
    exec i s = .next { s.apply e with errcode := .none, done := true, lcmd := none } := by
  rw [exec_command hi, runCommand_ok hl hr he]

/-- A command that succeeds on a context and writes it completes, and the context is the one written (R147). -/
theorem exec_command_ctx {i : Instr} (hi : i.isCommand = true) {s : State} {l : Lcmd} {c : BitVec 4} {e : Effect}
    {y : HashContext} (hl : s.lcmd = some l) (hr : s.raced = false) (hc : c.toNat < s.ctx.length)
    (he : executeOf i l.args s = .ok e) (hy : e.ctx = some (c, y)) :
    ∃ t, exec i s = .next t ∧ t.ctx[c.toNat]? = some y :=
  ⟨_, exec_command_ok hi hl hr he, by simp [hy, hc]⟩

end Sys2Proof.Machine
end

section
/-! SUPPORT. The statements of 42_sha1_commands.md, settled. -/

namespace Sys2Proof

open Sys2Proof.Machine

/-- Settles O25: the state committed, with the block split and its length written out. -/
theorem sha1UpdateResult : Obligations.Sha1UpdateResult := by
  unfold Obligations.Sha1UpdateResult
  intro s l c x m hl hr hx hs hm
  rw [exec_command_ok rfl hl hr (execute_sha1Update hx hs hm), HashContext.absorb_eq, hs]
  rfl

/-- Settles O26: a successful read returns MSG_LEN bytes, which are what `LEN` grows by. -/
theorem sha1BlockResult : Obligations.Sha1BlockResult := by
  unfold Obligations.Sha1BlockResult
  intro s l c x m hl hr hx hs hlen hm
  rw [exec_command_ok rfl hl hr (execute_sha1Block hx hs hlen hm), ← memRead_length hm]
  rfl

/-- Settles O27: the two writes of the command, committed at once. -/
theorem sha1FinishResult : Obligations.Sha1FinishResult := by
  unfold Obligations.Sha1FinishResult
  intro s l c x hl hr hx hs
  rw [exec_command_ok rfl hl hr (execute_sha1Finish hx hs l.args)]
  rfl

/-- Settles O48, as numbers: the carry moves into the high half, the carry out of it is discarded. -/
theorem addLenIsAddition : Obligations.AddLenIsAddition := by
  unfold Obligations.AddLenIsAddition
  exact dword_addLen

/-- Settles O56, by induction on the pieces: the context keeps holding the bytes it was given. -/
theorem streamingEquivalence : Obligations.StreamingEquivalence := by
  unfold Obligations.StreamingEquivalence
  intro pieces
  obtain ⟨X, p, happ, h⟩ := HashContext.fresh_holds.exists_foldl_absorb pieces
  rw [h.finish_eq, happ]
  rfl

/-- Settles O57: each command writes the context its operation on `Holds` speaks of. -/
theorem streamingCommandsRefineSha1 : Obligations.StreamingCommandsRefineSha1 := by
  unfold Obligations.StreamingCommandsRefineSha1
  intro s l c hl hr hc
  refine ⟨?_, fun x X p m hx h hm => ⟨?_, fun hlen => ?_⟩, fun x X p hx h => ?_⟩
  · obtain ⟨t, ht, hctx⟩ :=
      exec_command_ctx rfl hl hr hc (execute_sha1Init (List.getElem?_eq_getElem hc) l.args) rfl
    exact ⟨t, _, ht, hctx, HashContext.fresh_holds⟩
  · obtain ⟨t, ht, hctx⟩ := exec_command_ctx rfl hl hr hc (execute_sha1Update hx h.active hm) rfl
    exact ⟨t, _, ht, hctx, h.exists_absorb m⟩
  · obtain ⟨t, ht, hctx⟩ := exec_command_ctx rfl hl hr hc (execute_sha1Block hx h.active hlen hm) rfl
    exact ⟨t, _, ht, hctx, h.absorbBlocks (by rw [memRead_length hm, hlen])⟩
  · refine ⟨_, exec_command_ok rfl hl hr (execute_sha1Finish hx h.active l.args), ?_⟩
    exact congrArg Chain.bytes h.finish_eq

/-- Settles O24: the check asks only that the context exists, not for its lifecycle state. -/
theorem sha1InitResult : Obligations.Sha1InitResult := by
  unfold Obligations.Sha1InitResult
  intro s l c hl hr hc
  rw [exec_command_ok rfl hl hr (execute_sha1Init (List.getElem?_eq_getElem hc) l.args)]
  rfl

/-- Settles O32: `Execute` asks for an ACTIVE context before it looks at an operand. -/
theorem inactiveContextReported : Obligations.InactiveContextReported := by
  unfold Obligations.InactiveContextReported
  intro s l c x hl hx hs
  obtain ⟨hupdate, hblock, hfinish⟩ := execute_inactive hx hs l.args
  simp only [List.forall_mem_cons]
  exact ⟨exec_command_error rfl hl hupdate, exec_command_error rfl hl hblock, exec_command_error rfl hl hfinish,
    by simp⟩

/-- Settles O33: the length check answers before `memRead` is reached. -/
theorem blockLengthReported : Obligations.BlockLengthReported := by
  unfold Obligations.BlockLengthReported
  intro s l c x hl hx hs hlen
  exact exec_command_error rfl hl (execute_sha1Block_badLength hx hs hlen)

end Sys2Proof
end

section
/-! SUPPORT. HMAC (43_hmac.md R230 to R232): `K0` on each side of the 64-byte bound, and `Execute` of `HMAC_SHA1`. -/

namespace Sys2Proof.Machine

@[simp] theorem sha1_length (m : List Byte) : (sha1 m).length = 20 := Chain.bytes_length (sha1Chain m)

/-! ### The block key `K0` -/

theorem hmacK0_of_le {key : List Byte} (h : key.length ≤ 64) : hmacK0 key = key ++ zeros (64 - key.length) :=
  if_neg (Nat.not_lt.mpr h)

theorem hmacK0_of_lt {key : List Byte} (h : 64 < key.length) :
    hmacK0 key = sha1 key ++ zeros (64 - (sha1 key).length) :=
  if_pos h

/-- A digest is short enough to be used as it is, so a long key and its digest pad to one `K0` (R230, R231). -/
theorem hmacK0_sha1 {key : List Byte} (h : 64 < key.length) : hmacK0 (sha1 key) = hmacK0 key := by
  have hshort : (sha1 key).length ≤ 64 := by simp
  rw [hmacK0_of_le hshort, hmacK0_of_lt h]

/-- HMAC with its two pad blocks spelled out over `K0` (R230). -/
theorem hmac_eq (key msg : List Byte) : hmac key msg =
    sha1 ((hmacK0 key).map (fun b => 0x5C#8 ^^^ b) ++ sha1 ((hmacK0 key).map (fun b => 0x36#8 ^^^ b) ++ msg)) := rfl

/-- HMAC depends on the key through `K0` alone (R230). -/
theorem hmac_congr {key key' : List Byte} (h : hmacK0 key = hmacK0 key') (msg : List Byte) :
    hmac key msg = hmac key' msg := by
  rw [hmac_eq, hmac_eq, h]

/-! ### `Execute` -/

theorem execute_hmacSha1 {s : State} {a : ArgRegs} {key msg : List Byte}
    (hkey : memRead s a.keyAddr a.keyLen = .ok key) (hmsg : memRead s a.msgAddr a.msgLen = .ok msg) :
    executeOf .hmacSha1 a s = .ok { digest := some (Chain.ofBytes (hmac key msg)) } := by
  simp [executeOf, executeHmacSha1, hkey, hmsg]

end Sys2Proof.Machine
end

section
/-! The statements of 43_hmac.md, settled. -/

namespace Sys2Proof

open Sys2Proof.Machine

/-- Settles O28: `K0` on each side of the 64-byte bound; the command commits the digest alone. -/
theorem hmacResult : Obligations.HmacResult := by
  unfold Obligations.HmacResult
  constructor
  · rintro key msg k k0 rfl rfl
    rw [hmac_eq]
    split
    · next hlong => rw [hmacK0_of_lt hlong, zeros]
    · next hshort => rw [hmacK0_of_le (Nat.not_lt.mp hshort), zeros]
  · intro s l key msg hl hr hkey hmsg
    rw [exec_command_ok rfl hl hr (execute_hmacSha1 hkey hmsg)]
    rfl

/-- Settles O50: the two keys have one `K0`. -/
theorem hmacLongKeyReduction : Obligations.HmacLongKeyReduction := by
  unfold Obligations.HmacLongKeyReduction
  intro key msg hlong
  exact hmac_congr (hmacK0_sha1 hlong).symm msg

end Sys2Proof
end

section
/-! SUPPORT. The OTP functions as numbers and digits (44_otp.md R251 to R253, R260 to R263), and `Execute` of the two OTP
commands by its checks (R256, R261, R264). -/

namespace Sys2Proof.Machine

/-! ### Dynamic truncation -/

/-- The window offset as a number (R251). -/
theorem truncOffset_eq (hs : List Byte) : truncOffset hs = (hs.getD 19 0#8).toNat % 16 := by
  rw [truncOffset, BitVec.toNat_and]
  exact Nat.and_two_pow_sub_one_eq_mod _ 4

/-- `S` as a number: four bytes of the digest, the top bit cleared (R251). -/
theorem truncValue_toNat (hs : List Byte) : (truncValue hs).toNat =
    (hs.getD (truncOffset hs) 0#8).toNat % 128 * 2 ^ 24 + (hs.getD (truncOffset hs + 1) 0#8).toNat * 2 ^ 16 +
      (hs.getD (truncOffset hs + 2) 0#8).toNat * 2 ^ 8 + (hs.getD (truncOffset hs + 3) 0#8).toNat := by
  have hclear (b : Byte) : (b &&& 0x7F#8).toNat = b.toNat % 128 := by
    rw [BitVec.toNat_and]
    exact Nat.and_two_pow_sub_one_eq_mod _ 7
  rw [truncValue, toNat_fourBytes, hclear]

/-! ### The decimal string -/

theorem digit_toNat (v : Nat) : (0x30#8 + BitVec.ofNat 8 (v % 10)).toNat = 0x30 + v % 10 := by
  simp only [BitVec.toNat_add, BitVec.toNat_ofNat]
  omega

@[simp] theorem render_length (v d : Nat) : (render v d).length = d := by
  induction d generalizing v with
  | zero => rfl
  | succ d ih => simp [render, ih]

theorem render_isDigit {v d : Nat} {b : Byte} (h : b ∈ render v d) : 0x30 ≤ b.toNat ∧ b.toNat ≤ 0x39 := by
  induction d generalizing v with
  | zero => simp [render] at h
  | succ d ih =>
    rcases List.mem_append.mp h with hfront | hlast
    · exact ih hfront
    · rw [List.mem_singleton.mp hlast, digit_toNat]
      omega

/-- The string read as a decimal number is the number's last d digits (R252). -/
theorem render_foldl (v d : Nat) : (render v d).foldl (fun n b => 10 * n + (b.toNat - 0x30)) 0 = v % 10 ^ d := by
  induction d generalizing v with
  | zero => simp [render, Nat.mod_one]
  | succ d ih =>
    simp only [render, List.foldl_append, List.foldl_cons, List.foldl_nil, ih, digit_toNat, Nat.add_sub_cancel_left]
    rw [Nat.pow_succ', Nat.mod_mul, Nat.add_comm]

/-! ### The time counter -/

theorem ArgRegs.effectiveStep_pos (a : ArgRegs) : 0 < a.effectiveStep := by
  rw [effectiveStep]
  split
  · decide
  · next h => exact Nat.pos_of_ne_zero fun h0 => h (BitVec.eq_of_toNat_eq h0)

/-- The counter is the number of the step interval `now` lies in (R263, R265). -/
theorem ArgRegs.totpCounter_eq_iff {a : ArgRegs} (h : a.startOffset ≤ a.now) (k : Nat) :
    a.totpCounter = k ↔
      a.startOffset + k * a.effectiveStep ≤ a.now ∧ a.now < a.startOffset + (k + 1) * a.effectiveStep := by
  have hfloor : (a.totpCounter : Int) = (a.now - a.startOffset) / a.effectiveStep := by
    rw [totpCounter, Int.natCast_ediv, Int.toNat_sub_of_le h]
  rw [← Int.natCast_inj, hfloor, Int.ediv_eq_iff_of_pos (Int.natCast_pos.mpr a.effectiveStep_pos), add_mul, one_mul]
  omega

theorem ArgRegs.startOffset_le_now {a : ArgRegs} {k : Nat} (h : a.startOffset + k * a.effectiveStep ≤ a.now) :
    a.startOffset ≤ a.now := by
  have hk : (0 : Int) ≤ k * a.effectiveStep := Int.natCast_nonneg (k * a.effectiveStep)
  omega

/-- The widest difference of two signed 64-bit values fits 64 unsigned bits, and so does its quotient (R263). -/
theorem ArgRegs.totpCounter_lt (a : ArgRegs) : a.totpCounter < 2 ^ 64 := by
  have hnow : a.now < 2 ^ 63 := BitVec.toInt_lt
  have hstart : -2 ^ 63 ≤ a.startOffset := BitVec.le_toInt _
  have hdiff : (a.now - a.startOffset).toNat < 2 ^ 64 := by omega
  exact (Nat.div_le_self _ _).trans_lt hdiff

/-! ### The check of the length -/

theorem validDigits_iff (d : BitVec 8) : validDigits d = true ↔ d = 6#8 ∨ d = 7#8 ∨ d = 8#8 := by
  simp [validDigits, or_assoc]

theorem validDigits_iff_toNat (d : BitVec 8) : validDigits d = true ↔ d.toNat = 6 ∨ d.toNat = 7 ∨ d.toNat = 8 := by
  simp [validDigits_iff, BitVec.toNat_eq]

/-! ### `Execute` -/

/-- What `HOTP_GEN` writes for a secret it could read (R256, R257). -/
def hotpEffect (d : BitVec 8) (counter : Dword) (secret : List Byte) : Effect where
  digest := some (Chain.ofBytes (hotpHmac secret counter))
  otp := some (otpRegsOf (hotpHmac secret counter) d.toNat)

/-- What `TOTP_GEN` writes: the HOTP results and the counter (R264). -/
def totpEffect (d : BitVec 8) (counter : Dword) (secret : List Byte) : Effect :=
  { hotpEffect d counter secret with totpCnt := some counter }

section
variable {d : BitVec 8} {a : ArgRegs} {s : State}

/-- Past the check of the length, `HOTP_GEN` is its write of the secret it reads (R256). -/
theorem execute_hotpGen (hd : validDigits d = true) (k : Bool) : executeOf (.hotpGen d k) a s =
    (memRead s a.keyAddr a.keyLen).map (hotpEffect d a.counter) := by
  simp only [executeOf, executeHotpGen, hd, if_true]
  cases memRead s a.keyAddr a.keyLen <;> rfl

/-- Past the checks of the length and the time, `TOTP_GEN` is its write of the secret it reads (R264). -/
theorem execute_totpGen (hd : validDigits d = true) (hnow : a.startOffset ≤ a.now) : executeOf (.totpGen d) a s =
    (memRead s a.keyAddr a.keyLen).map (totpEffect d (BitVec.ofNat 64 a.totpCounter)) := by
  simp only [executeOf, executeTotpGen, hd, hnow.not_gt, if_true, if_false]
  cases memRead s a.keyAddr a.keyLen <;> rfl

/-- The length is checked before anything else (R253). -/
theorem execute_hotpGen_badDigits (hd : ¬ validDigits d = true) (k : Bool) :
    executeOf (.hotpGen d k) a s = .error .invalidDigits :=
  if_neg hd

theorem execute_totpGen_badDigits (hd : ¬ validDigits d = true) : executeOf (.totpGen d) a s = .error .invalidDigits :=
  if_neg hd

/-- The time is checked after the length and before the secret is read (R261). -/
theorem execute_totpGen_early (hd : validDigits d = true) (hnow : a.now < a.startOffset) :
    executeOf (.totpGen d) a s = .error .invalidTimestamp :=
  (if_pos hd).trans (if_pos hnow)

/-- `TOTP_GEN` sees the time through the counter alone (R263, R265). -/
theorem execute_totpGen_congr {b : ArgRegs} (haddr : b.keyAddr = a.keyAddr) (hlen : b.keyLen = a.keyLen)
    (hcount : b.totpCounter = a.totpCounter) (ha : a.startOffset ≤ a.now) (hb : b.startOffset ≤ b.now) :
    executeOf (.totpGen d) b s = executeOf (.totpGen d) a s := by
  by_cases hd : validDigits d = true
  · rw [execute_totpGen hd ha, execute_totpGen hd hb, haddr, hlen, hcount]
  · rw [execute_totpGen_badDigits hd, execute_totpGen_badDigits hd]

/-- Writing what was read adds no cause of failure to that of the read (R84). -/
theorem memRead_map_error {addr n : Word} {f : List Byte → Effect} {c : ErrCode}
    (h : (memRead s addr n).map f = .error c) : c = .hashFailure := by
  cases hm : memRead s addr n with
  | ok m => simp [hm, Except.map] at h
  | error e =>
    obtain rfl : e = c := by simpa [hm, Except.map] using h
    exact memRead_error hm

/-- A valid length is never reported as invalid (R253). -/
theorem execute_hotpGen_ne_invalidDigits (hd : validDigits d = true) (k : Bool) :
    executeOf (.hotpGen d k) a s ≠ .error .invalidDigits := by
  intro h
  rw [execute_hotpGen hd] at h
  cases memRead_map_error h

theorem execute_totpGen_ne_invalidDigits (hd : validDigits d = true) :
    executeOf (.totpGen d) a s ≠ .error .invalidDigits := by
  intro h
  rcases lt_or_ge a.now a.startOffset with hearly | hnow
  · rw [execute_totpGen_early hd hearly] at h
    cases h
  · rw [execute_totpGen hd hnow] at h
    cases memRead_map_error h

end

/-! ### The commit of a command latched anew -/

/-- A commit does not depend on the latched command, which it drops (R147). -/
theorem commit_lcmd (r : Except ErrCode Effect) (s : State) (l : Option Lcmd) :
    ({ s with lcmd := l } : State).commit r = s.commit r := by
  cases r <;> rfl

/-- Only the arguments of the latched command matter to its completion (R145). -/
theorem exec_command_relatched {i : Instr} (hi : i.isCommand = true) (s : State) (l : Lcmd) :
    exec i { s with lcmd := some l } = .next (s.commit (executeOf i l.args s)) := by
  have hsame : executeOf i l.args { s with lcmd := some l } = executeOf i l.args s :=
    execute_congr (s := s) (t := { s with lcmd := some l }) rfl rfl rfl i l.args
  rw [exec_command_latched (s := { s with lcmd := some l }) hi rfl, hsame, commit_lcmd]

/-- A commit shows an error code only if it is the result's own (R147). -/
theorem commit_errcode_ne {r : Except ErrCode Effect} {c : ErrCode} (hr : r ≠ .error c) (hc : c ≠ .none) (s : State) :
    (s.commit r).errcode ≠ c := by
  cases r with
  | ok e => exact hc.symm
  | error c' => exact fun h => hr (congrArg Except.error h)

end Sys2Proof.Machine
end

section
/-! SUPPORT. The statements of 44_otp.md, settled. -/

namespace Sys2Proof

open Sys2Proof.Machine

/-- Settles O29: the two writes of the command, committed at once; `CKSUM` is not looked at. -/
theorem hotpResult : Obligations.HotpResult := by
  unfold Obligations.HotpResult
  rintro s l d k secret hs hl hr hd hm rfl
  have hexecute : executeOf (.hotpGen d k) l.args s = .ok (hotpEffect d l.args.counter secret) := by
    rw [execute_hotpGen ((validDigits_iff d).mpr hd), hm]
    rfl
  rw [exec_command_ok rfl hl hr hexecute]
  rfl

/-- Settles O30: the HOTP writes for the counter of the time, and the counter's two halves. -/
theorem totpResult : Obligations.TotpResult := by
  unfold Obligations.TotpResult
  rintro s l d secret hs counter hl hr hd hnow hm rfl rfl
  have hexecute : executeOf (.totpGen d) l.args s =
      .ok (totpEffect d (BitVec.ofNat 64 l.args.totpCounter) secret) := by
    rw [execute_totpGen ((validDigits_iff d).mpr hd) hnow, hm]
    rfl
  rw [exec_command_ok rfl hl hr hexecute]
  rfl

/-- Settles O34: the length is checked first, and no later check answers `INVALID_DIGITS`. -/
theorem invalidDigitsReported : Obligations.InvalidDigitsReported := by
  unfold Obligations.InvalidDigitsReported
  intro s l d k hl
  refine ⟨fun h6 h7 h8 => ?_, fun hd => ?_⟩
  · have hbad : ¬ validDigits d = true := by simp [validDigits_iff_toNat, h6, h7, h8]
    exact ⟨exec_command_error rfl hl (execute_hotpGen_badDigits hbad k),
      exec_command_error rfl hl (execute_totpGen_badDigits hbad)⟩
  · have hvalid : validDigits d = true := (validDigits_iff_toNat d).mpr hd
    exact ⟨_, _, exec_command_latched rfl hl, commit_errcode_ne (execute_hotpGen_ne_invalidDigits hvalid k) (by decide) s,
      exec_command_latched rfl hl, commit_errcode_ne (execute_totpGen_ne_invalidDigits hvalid) (by decide) s⟩

/-- Settles O51: a digest byte is below 256, the offset below 16. -/
theorem truncationWindow : Obligations.TruncationWindow := by
  unfold Obligations.TruncationWindow
  intro hs _
  have hoffset : truncOffset hs = (hs.getD 19 0#8).toNat % 16 := truncOffset_eq hs
  refine ⟨hoffset, by omega, truncValue_toNat hs, ?_⟩
  rw [truncValue_toNat]
  omega

/-- Settles O52: d digits read back as the number modulo 10^d. -/
theorem renderIsDecimal : Obligations.RenderIsDecimal := by
  unfold Obligations.RenderIsDecimal
  intro v d hv
  exact ⟨render_length v d, fun _ hb => render_isDigit hb, by rw [render_foldl, Nat.mod_eq_of_lt hv]⟩

/-- Settles O53: the counter numbers the step interval that `now` lies in. -/
theorem totpCounterIsFloor : Obligations.TotpCounterIsFloor := by
  unfold Obligations.TotpCounterIsFloor
  intro a h
  obtain ⟨hlow, hhigh⟩ := (ArgRegs.totpCounter_eq_iff h a.totpCounter).mp rfl
  exact ⟨by omega, by omega, a.totpCounter_lt, fun h0 => if_pos h0, fun h0 => if_neg h0⟩

/-- Settles O54: both times have the counter k, and `Execute` sees the time through the counter alone. -/
theorem totpStability : Obligations.TotpStability := by
  unfold Obligations.TotpStability
  intro s w a b d k _ hab hlowa hhigha hlowb hhighb
  have ha : a.startOffset ≤ a.now := ArgRegs.startOffset_le_now hlowa
  have hb : b.startOffset ≤ b.now := ArgRegs.startOffset_le_now hlowb
  have hcounta : a.totpCounter = k := (ArgRegs.totpCounter_eq_iff ha k).mpr ⟨hlowa, hhigha⟩
  have hcountb : b.totpCounter = k := (ArgRegs.totpCounter_eq_iff hb k).mpr ⟨hlowb, hhighb⟩
  have hsame : executeOf (.totpGen d) b s = executeOf (.totpGen d) a s :=
    execute_totpGen_congr (by rw [hab]) (by rw [hab]) (hcountb.trans hcounta.symm) ha hb
  refine ⟨hcounta, hcountb, _, exec_command_relatched rfl s ⟨w, a⟩, ?_⟩
  rw [exec_command_relatched rfl s ⟨w, b⟩, hsame]

/-- Settles O55: `Execute` of neither command looks at `CKSUM` or `TRUNC_OFF`. -/
theorem ignoredParameters : Obligations.IgnoredParameters := by
  unfold Obligations.IgnoredParameters
  intro s l d off hl _
  exact ⟨_, _, exec_command_latched rfl hl, exec_command_latched rfl hl, fun k => exec_command_relatched rfl s _,
    exec_command_latched rfl hl, exec_command_relatched rfl s _⟩

/-- Settles O35: the time is checked before the secret is read. -/
theorem earlyTimestampReported : Obligations.EarlyTimestampReported := by
  unfold Obligations.EarlyTimestampReported
  intro s l d hl hd hnow
  exact exec_command_error rfl hl (execute_totpGen_early ((validDigits_iff d).mpr hd) hnow)

end Sys2Proof
end

section
/-! SUPPORT. The statements of 60_exceptions.md, settled. -/

namespace Sys2Proof

open Sys2Proof.Machine

/-- Settles O38: a success leaves ERR clear, so the command failed, and error entry writes nothing else. -/
theorem errorsArePrecise : Obligations.ErrorsArePrecise := by
  unfold Obligations.ErrorsArePrecise
  intro s t i hi herr h hfailed
  obtain ⟨l, -, rfl⟩ := exec_command_next hi h
  cases he : executeOf i l.args s with
  | ok e =>
    rw [he, State.commit_ok, State.commitOk_err, herr] at hfailed
    cases hfailed
  | error c => exact ⟨execute_error hi he, rfl⟩

end Sys2Proof
end

section
/-! SUPPORT. The states a reset leaves (70_reset_and_hazards.md R310): they are well formed, and what their registers
show. -/

namespace Sys2Proof.Machine

/-- A reset with legal parameters is well formed (00_scope.md R8, 10_state.md R32). -/
theorem resetWith_wf {n : Nat} {cfg : Config} (hcfg : ConfigWf cfg) (hlo : 1 ≤ n) (hhi : n ≤ 16) :
    (State.resetWith n cfg).Wf := by
  have hlen : (State.resetWith n cfg).ctx.length = n := List.length_replicate
  refine ⟨hcfg, by omega, fun x hx => ?_, ⟨rfl, fun c hc => nomatch hc⟩, ?_⟩
  · rw [List.eq_of_mem_replicate hx]
    decide
  · exact ⟨fun _ => rfl, fun _ => ⟨rfl, rfl⟩, fun hraced => nomatch hraced⟩

/-- After the reset input `CTX_SEL` is 0, which is an index of a context (10_state.md R53). -/
theorem resetInput_viewCtx {s : State} (h : 1 ≤ s.ctx.length) : s.resetInput.viewCtx = some HashContext.reset := by
  rw [State.viewCtx, State.resetInput_ctx]
  exact List.getElem?_replicate_of_lt h

/-- Every register but the two hardwired ones reads 0 after the reset input (10_state.md R36, R41, R42). -/
theorem readReg_resetInput {s : State} (h : 1 ≤ s.ctx.length) {r : Reg} (hid : r ≠ .id) (hcaps : r ≠ .caps) :
    s.resetInput.readReg r = 0#32 := by
  have hview : s.resetInput.viewCtx = some HashContext.reset := resetInput_viewCtx h
  cases r with
  | id => exact absurd rfl hid
  | caps => exact absurd rfl hcaps
  | status => simp [State.readReg, State.statusWord, State.busy, bitAt]
  | viewH0 | viewH1 | viewH2 | viewH3 | viewH4 | viewLenLo | viewLenHi | viewPlen => exact view_some hview _
  | viewState => rw [State.readReg, hview]; rfl
  | _ => rfl

/-- Every offset but those of `ID` and `CAPS` reads 0 after the reset input (10_state.md R36, R54). -/
theorem regValue_resetInput {s : State} (h : 1 ≤ s.ctx.length) {offset : BitVec 8} (hid : offset ≠ 0x10#8)
    (hcaps : offset ≠ 0x14#8) : s.resetInput.regValue offset = 0#32 := by
  cases hr : Reg.ofOffset offset with
  | none => exact regValue_reserved hr _
  | some r =>
    rw [regValue_reg hr]
    apply readReg_resetInput h
    · rintro rfl
      exact hid (ofOffset_injective hr rfl)
    · rintro rfl
      exact hcaps (ofOffset_injective hr rfl)

end Sys2Proof.Machine
end

section
/-! SUPPORT. The statements of 70_reset_and_hazards.md, settled. -/

namespace Sys2Proof

open Sys2Proof.Machine

/-- Settles O10: `ID` and `CAPS` are hardwired, and every other register is cleared. -/
theorem registersAfterReset : Obligations.RegistersAfterReset := by
  unfold Obligations.RegistersAfterReset
  intro s hlo hhi
  refine ⟨fun offset => ?_, irq_low rfl rfl, rfl, rfl, fun x hx => List.eq_of_mem_replicate hx⟩
  split
  · next hid =>
    rw [hid]
    exact (idHardwired s.resetInput 0#32).1
  · next hid =>
    split
    · next hcaps =>
      have hlen : s.resetInput.ctx.length = s.ctx.length := List.length_replicate
      rw [hcaps, ← hlen]
      exact (capsHardwired s.resetInput 0#32 (hlen ▸ hlo) (hlen ▸ hhi)).1
    · next hcaps => exact regValue_resetInput hlo hid hcaps

/-- Settles O9: the step takes the script's entry, which is the reset input. -/
theorem resetInputState : Obligations.ResetInputState := by
  unfold Obligations.ResetInputState
  intro s rest h
  rw [step_entry h]
  rfl

/-- Settles O58: the default parameters are legal, and a reset context has `LEN` 0. -/
theorem resetStateWellFormed : Obligations.ResetStateWellFormed := by
  unfold Obligations.ResetStateWellFormed
  refine ⟨resetWith_wf (by decide) (by decide) (by decide), fun x hx => ?_⟩
  rw [List.eq_of_mem_replicate hx]
  decide

end Sys2Proof
end
